-- ==== Sys2Proof/Word.lean ====
section
/-! DEFINITION. The words of the decoder block: the unsigned values of R15 and the 3-bit selectors of R12. -/

namespace Sys2Proof

/-- `u8`, one byte of the input (R15). -/
abbrev Byte := BitVec 8

/-- `u16`, the width of a displacement, an immediate or a direct address (R12, R15). -/
abbrev Word := BitVec 16

/-- A 3-bit selector: `reg`, `rm` or the secondary selector (R12, R19). -/
abbrev Sel := BitVec 3

end Sys2Proof
end

