-- ==== Sys2Proof/Config.lean ====
section
/-! DEFINITION. The build parameters of R12: what one build of the block fixes, and the values the spec leaves open.
A `Params` is plain data and stands in State, where no step writes it (R28; log entry 2). -/

namespace Sys2Proof

/-- `DIRECT_ADDR_QUALIFIER` (R12, R111; C2). -/
inductive DirectAddrQualifier where
  | alwaysWord
  | byWidth
  deriving DecidableEq, Repr

/-- The parameters of R12 that a build fixes. `N` is the caller's and stands in State as `inputLength`. -/
structure Params where
  /-- `IMM_RM_WIDE_DATA`: the immediate → r/m family reads two data bytes when `w = 1` and `s = 0` (R74). -/
  immRmWideData : Bool
  /-- `DIRECT_ADDR_QUALIFIER` (R111). -/
  directAddrQualifier : DirectAddrQualifier
  /-- `HEADER_COMMENT`, output line 1 (R117); it starts with `;`. -/
  headerComment : String
  /-- `CURSOR_BITS`, the width of the cursor in a physical build (R12; D2). -/
  cursorBits : Nat
  deriving DecidableEq, Repr

/-- What R12, R116 and R117 demand of `HEADER_COMMENT`: a comment line, which starts with `;` and, being one line,
holds no line break character. DEDUCED for the line break characters (log entry 3). -/
def Params.headerOk (p : Params) : Bool :=
  p.headerComment.toList.head? = some ';' && p.headerComment.toList.all (fun c => c ≠ '\n' && c ≠ '\r')

namespace Config

/-- The characters of `HEADER_COMMENT` after its `;`: OPEN in the spec (D14), so a free value (log entry 3). -/
opaque headerCommentTail : List Char

/-- `CURSOR_BITS`: OPEN in the spec (D2), so a free value (log entry 4). -/
opaque cursorBits : Nat

/-- `HEADER_COMMENT`: any one line that starts with `;` (R12, R117; log entry 3). -/
def headerComment : String :=
  String.ofList (';' :: headerCommentTail.filter (fun c => c ≠ '\n' && c ≠ '\r'))

/-- The parameters after reset: R12's values where it gives one, the free values where it leaves them open. -/
def params : Params where
  immRmWideData := false
  directAddrQualifier := .alwaysWord
  headerComment := headerComment
  cursorBits := cursorBits

end Config

end Sys2Proof
end

