-- ==== Sys2Proof/Machine/Header.lean ====
section
/-! DEFINITION. The two header lines that begin every output (R117, R145). -/

namespace Sys2Proof.Machine

/-- Header line 2 (R117; D15). -/
def headerModeLine : String := "bits 16"

/-- The two header lines, in order (R145). -/
def headerLines (p : Params) : List String := [p.headerComment, headerModeLine]

end Sys2Proof.Machine
end

