-- ==== Sys2Proof/Syntax.lean ====
section
/-! DEFINITION. The instructions the block decodes, one constructor per row of spec/opcode_table.json (R63), with the
fields each format of 30_encoding.md carries. A term keeps the data bytes as they are encoded: extension is the
datapath's (Machine/Operands.lean). -/

namespace Sys2Proof

/-- `Width` (R31): the width flag `w`. -/
inductive Width where
  | byte
  | word
  deriving DecidableEq, Repr

/-- `Mnemonic` (R31). -/
inductive Mnemonic where
  | mov
  | add
  | sub
  | cmp
  deriving DecidableEq, Repr

/-- `Mode` (R31, R58): the four values of the addressing-mode field. -/
inductive Mode where
  | mem0
  | mem8
  | mem16
  | regd
  deriving DecidableEq, Repr

/-- The r/m operand as encoded: the `mod` and `rm` fields with the displacement bytes they require (R58, R59, R64). -/
inductive RmOperand where
  /-- `mod = 11`: register-direct. -/
  | reg (rm : Sel)
  /-- `mod = 00`, `rm ≠ 110`: memory without displacement. -/
  | mem0 (rm : Sel)
  /-- `mod = 00`, `rm = 110`: a 16-bit direct address. -/
  | direct (addr : Word)
  /-- `mod = 01`: memory with an 8-bit displacement. -/
  | mem8 (rm : Sel) (disp : Byte)
  /-- `mod = 10`: memory with a 16-bit displacement. -/
  | mem16 (rm : Sel) (disp : Word)
  deriving DecidableEq, Repr

/-- The immediate as encoded: one data byte, or two in little-endian order (R55, R56, R57). -/
inductive ImmData where
  | one (data : Byte)
  | two (data : Word)
  deriving DecidableEq, Repr

/-- The twelve instructions (R63). `d` is the direction flag, `s` the sign-extension flag, `w` the width flag. -/
inductive Instr where
  /-- MOV r/m ↔ reg, `100010dw` (R83). -/
  | movRM (d : Bool) (w : Width) (reg : Sel) (rm : RmOperand)
  /-- ADD r/m ↔ reg, `000000dw` (R84). -/
  | addRM (d : Bool) (w : Width) (reg : Sel) (rm : RmOperand)
  /-- SUB r/m ↔ reg, `001010dw` (R85). -/
  | subRM (d : Bool) (w : Width) (reg : Sel) (rm : RmOperand)
  /-- CMP r/m ↔ reg, `001110dw` (R86). -/
  | cmpRM (d : Bool) (w : Width) (reg : Sel) (rm : RmOperand)
  /-- MOV imm → reg, `1011wrrr` (R89). -/
  | movIR (w : Width) (reg : Sel) (imm : ImmData)
  /-- MOV imm → r/m, `1100011w` with selector `000`; it has no `s` field (R94). -/
  | movIRM (w : Width) (rm : RmOperand) (imm : ImmData)
  /-- ADD imm → r/m, `100000sw` with selector `000` (R95). -/
  | addIRM (s : Bool) (w : Width) (rm : RmOperand) (imm : ImmData)
  /-- SUB imm → r/m, `100000sw` with selector `101` (R96). -/
  | subIRM (s : Bool) (w : Width) (rm : RmOperand) (imm : ImmData)
  /-- CMP imm → r/m, `100000sw` with selector `111` (R97). -/
  | cmpIRM (s : Bool) (w : Width) (rm : RmOperand) (imm : ImmData)
  /-- ADD imm → acc, `0000010w` (R101). -/
  | addIA (w : Width) (imm : ImmData)
  /-- SUB imm → acc, `0010110w` (R102). -/
  | subIA (w : Width) (imm : ImmData)
  /-- CMP imm → acc, `0011110w` (R103). -/
  | cmpIA (w : Width) (imm : ImmData)
  deriving DecidableEq, Repr

end Sys2Proof
end

