-- ==== Sys2Proof/Machine/State.lean ====
section
/-! DEFINITION. The state of the block (R20), its value after reset (R144), and the reasons a step can stop.
The ROM tables of R20 are constants of the model, not fields (R30; log entry 1). -/

namespace Sys2Proof.Machine

/-- The two values of `run` (R22). -/
inductive Run where
  | running
  | stopped
  deriving DecidableEq, Repr

/-- The three stop reasons (R130). -/
inductive StopReason where
  | unrecognizedOpcode
  | decoderFailure
  | truncated
  deriving DecidableEq, Repr

/-- The `detail` of a stop (R130, R134). -/
inductive StopDetail where
  | none
  /-- The unsupported secondary selector. -/
  | selector (sel : Sel)
  /-- The bytes the failing check required from the cursor, and the bytes that remain there. -/
  | lengths (need remain : Nat)
  deriving DecidableEq, Repr

/-- `StopInfo` (R24). -/
structure StopInfo where
  reason : StopReason
  offset : Nat
  byte : Byte
  detail : StopDetail
  deriving DecidableEq, Repr

/-- The bytes of the input buffer `IN` (R38): (index, byte) cells, indices strictly rising, no cell holding the
byte an unlisted index reads as (Machine/Memory.lean). -/
abbrev Memory := List Host.Cell

/-- The state of the block (R20). -/
structure State where
  /-- The index of the next byte to decode; alias `pc` (R21, R26). -/
  cursor : Nat
  /-- RUNNING or STOPPED (R22). -/
  run : Run
  /-- The text sink: one line per element, without its terminator (R23). -/
  out : List String
  /-- The diagnostic register (R24). -/
  diag : Option StopInfo
  /-- The bytes of `IN` (R38). -/
  input : Memory
  /-- `N`, the number of bytes of `IN` (R12, R38). -/
  inputLength : Nat
  /-- The build parameters of R12. The model's own field: no step writes it (log entry 2). -/
  params : Params
  deriving DecidableEq, Repr

/-- Why `step` answers no next state: no step is enabled (R119). All three are raised by `step` alone, never by an
instruction, and stop the machine exactly where the spec has no step to take (log entries 7 and 8). -/
inductive Fault where
  /-- The pass is over at the end of input: `run = RUNNING` and `cursor = N` (DONE, R22, R119). Raised by `step`. Safe. -/
  | passDone
  /-- The pass is over after a stop: `run = STOPPED` (R119, R125). Raised by `step`. Safe. -/
  | passStopped
  /-- `cursor > N` while RUNNING: no run reaches it (R123), and no step is enabled there (R119). Raised by `step`. Safe. -/
  | cursorPastEnd
  deriving DecidableEq, Repr

/-- Why an instruction has no meaning. -/
inductive Refusal where
  /-- The instruction of this mnemonic has no meaning in the model. Raised by an arm of `exec`; no arm raises it. Safe. -/
  | notModelled (mnemonic : String)
  deriving DecidableEq, Repr

/-- The block right after reset (R144, R145), with the header lines written and nothing loaded by the caller
(log entry 6). -/
def State.reset : State where
  cursor := 0
  run := .running
  out := headerLines Config.params
  diag := none
  input := []
  inputLength := 0
  params := Config.params

end Sys2Proof.Machine
end

