-- ==== Sys2Proof/Machine/Memory.lean ====
section
/-! DEFINITION. The bytes of the input buffer: reading one, and storing one. The block itself only reads (R38,
R44); storing is what the caller does before a pass (R147). -/

namespace Sys2Proof.Machine

/-- The byte an unlisted index reads as. DESIGN CHOICE (log entry 5): a cell list in canonical form together with
`N` is one byte sequence, whose zero bytes are not listed. -/
def Memory.blank : Byte := 0x00#8

/-- `IN[i]`. -/
def Memory.read : Memory → Nat → Byte
  | [], _ => Memory.blank
  | (a, b) :: t, i => if a = i then b else Memory.read t i

/-- The canonical form: indices strictly rising, and no cell equal to what an unlisted index reads as. -/
abbrev Memory.wf (m : Memory) : Prop :=
  m.Pairwise (fun c d => c.1 < d.1) ∧ ∀ c ∈ m, c.2 ≠ Memory.blank

/-- `b` put in front of cells whose indices are above `i`, kept canonical. -/
def Memory.cons (i : Nat) (b : Byte) (m : Memory) : Memory :=
  if b = Memory.blank then m else (i, b) :: m

/-- The memory with `b` at index `i`. -/
def Memory.write : Memory → Nat → Byte → Memory
  | [], i, b => Memory.cons i b []
  | (a, c) :: t, i, b =>
    if i < a then Memory.cons i b ((a, c) :: t)
    else if a = i then Memory.cons i b t
    else (a, c) :: Memory.write t i b

/-- The memory with the bytes `bs` at consecutive indices from `i`. -/
def Memory.writeBytes : Memory → Nat → List Byte → Memory
  | m, _, [] => m
  | m, i, b :: bs => Memory.writeBytes (Memory.write m i b) (i + 1) bs

end Sys2Proof.Machine
end

