-- ==== Sys2Proof/WellFormed.lean ====
section
/-! DEFINITION. Which terms of `Instr` some byte sequence encodes, given the build parameters. -/

namespace Sys2Proof

/-- `mod = 00` with `rm = 110` is the direct address, never a memory operand without displacement (R59). -/
def RmOperand.wf : RmOperand → Bool
  | .mem0 rm => rm ≠ 0b110#3
  | _ => true

/-- The immediate of the IR and IA formats has two bytes exactly at word width (R55, R57, R73). -/
def ImmData.fitsWidth (w : Width) : ImmData → Bool
  | .one _ => w = .byte
  | .two _ => w = .word

/-- The immediate of the IRM format has two bytes exactly when `IMM_RM_WIDE_DATA` is set, `w = 1` and `s = 0`
(R56, R64, R74). -/
def ImmData.fitsIRM (p : Params) (s : Bool) (w : Width) : ImmData → Bool
  | .one _ => !(p.immRmWideData && decide (w = .word) && !s)
  | .two _ => p.immRmWideData && decide (w = .word) && !s

/-- The well-formed instructions of a build: those that some byte sequence encodes. -/
def Instr.wf (p : Params) : Instr → Bool
  | .movRM _ _ _ rm => rm.wf
  | .addRM _ _ _ rm => rm.wf
  | .subRM _ _ _ rm => rm.wf
  | .cmpRM _ _ _ rm => rm.wf
  | .movIR w _ imm => imm.fitsWidth w
  | .movIRM w rm imm => rm.wf && imm.fitsIRM p false w
  | .addIRM s w rm imm => rm.wf && imm.fitsIRM p s w
  | .subIRM s w rm imm => rm.wf && imm.fitsIRM p s w
  | .cmpIRM s w rm imm => rm.wf && imm.fitsIRM p s w
  | .addIA w imm => imm.fitsWidth w
  | .subIA w imm => imm.fitsWidth w
  | .cmpIA w imm => imm.fitsWidth w

end Sys2Proof
end

