-- ==== Sys2Proof/Decode.lean ====
section
/-! DEFINITION. From bytes to instructions (30_encoding.md and the decoders of 41 to 44), and back.
`decode` reads the bytes that remain from the cursor and answers an instruction with the bytes after it, or a
rejection by name. `encode` writes the bytes of an instruction from the same format tables. -/

namespace Sys2Proof

/-! ### Fields and byte order -/

/-- A little-endian 16-bit field: the byte at the lower index is bits 7..0 (R41). -/
def leWord (lo hi : Byte) : Word := hi ++ lo

/-- The byte of a 16-bit field at the lower index (R41). -/
def lowByte (v : Word) : Byte := v.extractLsb' 0 8

/-- The byte of a 16-bit field at the higher index (R41). -/
def highByte (v : Word) : Byte := v.extractLsb' 8 8

/-- `v[i]`, one bit of a byte (R14). -/
def byteBit (v : Byte) (i : Nat) : Bool := v.getLsbD i

/-- The width a flag bit selects: 0 = byte, 1 = word (R54). -/
def Width.ofBit : Bool → Width
  | false => .byte
  | true => .word

/-- The width flag bit (R54). -/
def Width.bit : Width → Bool
  | .byte => false
  | .word => true

/-- `b1[7:6]`, the addressing-mode field (R54, R56). -/
def modField (b1 : Byte) : BitVec 2 := b1.extractLsb' 6 2

/-- `b1[5:3]`, the reg-selector or the secondary selector (R54, R56). -/
def regField (b1 : Byte) : Sel := b1.extractLsb' 3 3

/-- `b1[2:0]`, the rm-selector (R54, R56). -/
def rmField (b1 : Byte) : Sel := b1.extractLsb' 0 3

/-- The mode a `mod` value selects (R58). -/
def Mode.ofField (mod : BitVec 2) : Mode :=
  if mod = 0b00#2 then .mem0
  else if mod = 0b01#2 then .mem8
  else if mod = 0b10#2 then .mem16
  else .regd

/-- The `mod` value of a mode (R58). -/
def Mode.field : Mode → BitVec 2
  | .mem0 => 0b00#2
  | .mem8 => 0b01#2
  | .mem16 => 0b10#2
  | .regd => 0b11#2

/-! ### The opcode dispatch table -/

/-- The two groups of the immediate → r/m family (R60, R91). -/
inductive ImmGroup where
  | arith
  | mov
  deriving DecidableEq, Repr

/-- The mnemonics of the immediate → accumulator family (R60). -/
inductive AccMnemonic where
  | add
  | sub
  | cmp
  deriving DecidableEq, Repr

/-- An entry of `DISPATCH`: a format with its mnemonic or group, or `UNRECOGNIZED` (R60). -/
inductive Entry where
  | unrecognized
  | rm (m : Mnemonic)
  | ir
  | irm (g : ImmGroup)
  | ia (m : AccMnemonic)
  deriving DecidableEq, Repr

/-- One pattern of R60: a leading byte `b` belongs to the row when `b &&& mask = pattern`. -/
structure DispatchRow where
  mask : Byte
  pattern : Byte
  entry : Entry
  deriving DecidableEq, Repr

/-- The recognized patterns of R60, in the order of its table. -/
def dispatchRows : List DispatchRow :=
  [ ⟨0xFC#8, 0x00#8, .rm .add⟩,
    ⟨0xFE#8, 0x04#8, .ia .add⟩,
    ⟨0xFC#8, 0x28#8, .rm .sub⟩,
    ⟨0xFE#8, 0x2C#8, .ia .sub⟩,
    ⟨0xFC#8, 0x38#8, .rm .cmp⟩,
    ⟨0xFE#8, 0x3C#8, .ia .cmp⟩,
    ⟨0xFC#8, 0x80#8, .irm .arith⟩,
    ⟨0xFC#8, 0x88#8, .rm .mov⟩,
    ⟨0xF0#8, 0xB0#8, .ir⟩,
    ⟨0xFE#8, 0xC6#8, .irm .mov⟩ ]

/-- `DISPATCH`, total on the 256 leading bytes (R60, R61). -/
def dispatch (b : Byte) : Entry :=
  match dispatchRows.find? (fun r => b &&& r.mask = r.pattern) with
  | some r => r.entry
  | none => .unrecognized

/-- The secondary dispatch on `sel` (R62); `none` is the table's `fail`. -/
def secondary : ImmGroup → Sel → Option Mnemonic
  | .arith, sel =>
    if sel = 0b000#3 then some .add
    else if sel = 0b101#3 then some .sub
    else if sel = 0b111#3 then some .cmp
    else none
  | .mov, sel => if sel = 0b000#3 then some .mov else none

/-! ### Lengths (R64) -/

/-- `disp_len(mod, rm)` (R64). -/
def dispLen (mode : Mode) (rm : Sel) : Nat :=
  match mode with
  | .regd => 0
  | .mem0 => if rm = 0b110#3 then 2 else 0
  | .mem8 => 1
  | .mem16 => 2

/-- The data bytes of the IR and IA formats (R64, R73). -/
def immLenW : Width → Nat
  | .byte => 1
  | .word => 2

/-- `imm_len_irm` (R64, R74). -/
def immLenIRM (p : Params) (s : Bool) (w : Width) : Nat :=
  if p.immRmWideData && decide (w = .word) && !s then 2 else 1

/-- The displacement bytes of an r/m operand. -/
def RmOperand.dispLen : RmOperand → Nat
  | .reg _ => 0
  | .mem0 _ => 0
  | .direct _ => 2
  | .mem8 _ _ => 1
  | .mem16 _ _ => 2

/-- The data bytes of an immediate. -/
def ImmData.length : ImmData → Nat
  | .one _ => 1
  | .two _ => 2

/-- `len`, the consumption the decoder of the instruction reports (R64). -/
def Instr.length : Instr → Nat
  | .movRM _ _ _ rm => 2 + rm.dispLen
  | .addRM _ _ _ rm => 2 + rm.dispLen
  | .subRM _ _ _ rm => 2 + rm.dispLen
  | .cmpRM _ _ _ rm => 2 + rm.dispLen
  | .movIR _ _ imm => 1 + imm.length
  | .movIRM _ rm imm => 2 + rm.dispLen + imm.length
  | .addIRM _ _ rm imm => 2 + rm.dispLen + imm.length
  | .subIRM _ _ rm imm => 2 + rm.dispLen + imm.length
  | .cmpIRM _ _ rm imm => 2 + rm.dispLen + imm.length
  | .addIA _ imm => 1 + imm.length
  | .subIA _ imm => 1 + imm.length
  | .cmpIA _ imm => 1 + imm.length

/-- The longest instruction: 6 bytes, with `IMM_RM_WIDE_DATA = true` (R64). -/
def maxInstrLength : Nat := 6

/-! ### Rejections -/

/-- Why no instruction decodes at the cursor: the three stop reasons of R130 with their details. -/
inductive Reject where
  /-- `UNRECOGNIZED_OPCODE`: the leading byte has no entry in `DISPATCH` (R131). -/
  | unrecognizedOpcode
  /-- `DECODER_FAILURE`: zero consumption; with the selector in the IRM selector case (R130, R132). -/
  | decoderFailure (sel : Option Sel)
  /-- `TRUNCATED`: the failing check required `need` bytes from the cursor and `remain` exist (R133, R134). -/
  | truncated (need remain : Nat)
  deriving DecidableEq, Repr

/-- What the decoder answers: an instruction and the bytes after it, or a rejection. -/
inductive DecodeResult where
  | ok (i : Instr) (rest : List Byte)
  | reject (r : Reject)
  deriving DecidableEq, Repr

/-! ### The readers: they answer `none` where a byte they need does not exist (R75) -/

/-- The r/m operand with its displacement bytes: the Displacement Reader's reads (R72). -/
def readRm (mode : Mode) (rm : Sel) (bs : List Byte) : Option (RmOperand × List Byte) :=
  match mode with
  | .regd => some (.reg rm, bs)
  | .mem0 =>
    if rm = 0b110#3 then
      match bs with
      | lo :: hi :: t => some (.direct (leWord lo hi), t)
      | _ => none
    else some (.mem0 rm, bs)
  | .mem8 =>
    match bs with
    | b :: t => some (.mem8 rm b, t)
    | _ => none
  | .mem16 =>
    match bs with
    | lo :: hi :: t => some (.mem16 rm (leWord lo hi), t)
    | _ => none

/-- An immediate of `n` data bytes, one or two (R73, R74). -/
def readImm (n : Nat) (bs : List Byte) : Option (ImmData × List Byte) :=
  match bs with
  | [] => none
  | lo :: t =>
    if n = 1 then some (.one lo, t)
    else
      match t with
      | [] => none
      | hi :: u => some (.two (leWord lo hi), u)

/-! ### The per-format decoders -/

/-- The RM instruction of a mnemonic (R63). -/
def rmInstr : Mnemonic → Bool → Width → Sel → RmOperand → Instr
  | .mov => .movRM
  | .add => .addRM
  | .sub => .subRM
  | .cmp => .cmpRM

/-- The IRM instruction of a mnemonic (R63); mov has no `s` field (R91). -/
def irmInstr (m : Mnemonic) (s : Bool) (w : Width) (rm : RmOperand) (imm : ImmData) : Instr :=
  match m with
  | .mov => .movIRM w rm imm
  | .add => .addIRM s w rm imm
  | .sub => .subIRM s w rm imm
  | .cmp => .cmpIRM s w rm imm

/-- The IA instruction of a mnemonic (R63). -/
def iaInstr : AccMnemonic → Width → ImmData → Instr
  | .add => .addIA
  | .sub => .subIA
  | .cmp => .cmpIA

/-- `decode_RM` (R81): `rest` is what follows the leading byte `b0`. -/
def decodeRM (m : Mnemonic) (b0 : Byte) (rest : List Byte) : DecodeResult :=
  match rest with
  | [] => .reject (.truncated 2 1)
  | b1 :: tail =>
    let mode := Mode.ofField (modField b1)
    match readRm mode (rmField b1) tail with
    | none => .reject (.truncated (2 + dispLen mode (rmField b1)) (2 + tail.length))
    | some (op, t) =>
      .ok (rmInstr m (byteBit b0 1) (.ofBit (byteBit b0 0)) (regField b1) op) t

/-- `decode_IR` (R88). -/
def decodeIR (b0 : Byte) (rest : List Byte) : DecodeResult :=
  let w := Width.ofBit (byteBit b0 3)
  match readImm (immLenW w) rest with
  | none => .reject (.truncated (1 + immLenW w) (1 + rest.length))
  | some (imm, t) => .ok (.movIR w (b0.extractLsb' 0 3) imm) t

/-- The sign-extension flag of an IRM leading byte: bit 1 in the ARITH group, 0 in the MOV group (R91). -/
def signFlag (g : ImmGroup) (b0 : Byte) : Bool :=
  match g with
  | .arith => byteBit b0 1
  | .mov => false

/-- `decode_IRM` (R92): the selector is checked before the full length (R136). -/
def decodeIRM (p : Params) (g : ImmGroup) (b0 : Byte) (rest : List Byte) : DecodeResult :=
  match rest with
  | [] => .reject (.truncated 2 1)
  | b1 :: tail =>
    let w := Width.ofBit (byteBit b0 0)
    let s := signFlag g b0
    let mode := Mode.ofField (modField b1)
    match secondary g (regField b1) with
    | none => .reject (.decoderFailure (some (regField b1)))
    | some m =>
      let short := DecodeResult.reject
        (.truncated (2 + dispLen mode (rmField b1) + immLenIRM p s w) (2 + tail.length))
      match readRm mode (rmField b1) tail with
      | none => short
      | some (op, t) =>
        match readImm (immLenIRM p s w) t with
        | none => short
        | some (imm, u) => .ok (irmInstr m s w op imm) u

/-- `decode_IA` (R99). -/
def decodeIA (m : AccMnemonic) (b0 : Byte) (rest : List Byte) : DecodeResult :=
  let w := Width.ofBit (byteBit b0 0)
  match readImm (immLenW w) rest with
  | none => .reject (.truncated (1 + immLenW w) (1 + rest.length))
  | some (imm, t) => .ok (iaInstr m w imm) t

/-- The decoder of one step (R120, R121) on the bytes that remain from the cursor. The loop never calls it with
none left (R119); there it answers that one byte is needed. DESIGN CHOICE (log entry 11). -/
def decode (p : Params) (bs : List Byte) : DecodeResult :=
  match bs with
  | [] => .reject (.truncated 1 0)
  | b0 :: rest =>
    match dispatch b0 with
    | .unrecognized => .reject .unrecognizedOpcode
    | .rm m => decodeRM m b0 rest
    | .ir => decodeIR b0 rest
    | .irm g => decodeIRM p g b0 rest
    | .ia m => decodeIA m b0 rest

/-! ### The encoder -/

/-- The `mod` field of an r/m operand (R58, R59). -/
def RmOperand.mode : RmOperand → Mode
  | .reg _ => .regd
  | .mem0 _ => .mem0
  | .direct _ => .mem0
  | .mem8 _ _ => .mem8
  | .mem16 _ _ => .mem16

/-- The `rm` field of an r/m operand: `110` for a direct address (R59). -/
def RmOperand.sel : RmOperand → Sel
  | .reg rm => rm
  | .mem0 rm => rm
  | .direct _ => 0b110#3
  | .mem8 rm _ => rm
  | .mem16 rm _ => rm

/-- The displacement bytes of an r/m operand (R54, R41). -/
def RmOperand.dispBytes : RmOperand → List Byte
  | .reg _ => []
  | .mem0 _ => []
  | .direct a => [lowByte a, highByte a]
  | .mem8 _ d => [d]
  | .mem16 _ d => [lowByte d, highByte d]

/-- The data bytes of an immediate (R55, R56, R57, R41). -/
def ImmData.bytes : ImmData → List Byte
  | .one b => [b]
  | .two v => [lowByte v, highByte v]

/-- The second byte `mod reg rm` (R54, R56). -/
def modRegRm (field : Sel) (rm : RmOperand) : Byte := rm.mode.field ++ field ++ rm.sel

/-- The leading byte of the RM format: `op6 d w` (R54). -/
def leadRM (op6 : BitVec 6) (d : Bool) (w : Width) : Byte :=
  op6 ++ BitVec.ofBool d ++ BitVec.ofBool w.bit

/-- The leading byte of the IR format: `1011 w reg` (R55). -/
def leadIR (w : Width) (reg : Sel) : Byte := 0b1011#4 ++ BitVec.ofBool w.bit ++ reg

/-- The leading byte of the ARITH group: `100000 s w` (R56). -/
def leadArith (s : Bool) (w : Width) : Byte := 0b100000#6 ++ BitVec.ofBool s ++ BitVec.ofBool w.bit

/-- A leading byte `op7 w` (R56, R57). -/
def leadOp7 (op7 : BitVec 7) (w : Width) : Byte := op7 ++ BitVec.ofBool w.bit

/-- The bytes of an instruction (R54 to R57, R62). -/
def encode : Instr → List Byte
  | .movRM d w reg rm => leadRM 0b100010#6 d w :: modRegRm reg rm :: rm.dispBytes
  | .addRM d w reg rm => leadRM 0b000000#6 d w :: modRegRm reg rm :: rm.dispBytes
  | .subRM d w reg rm => leadRM 0b001010#6 d w :: modRegRm reg rm :: rm.dispBytes
  | .cmpRM d w reg rm => leadRM 0b001110#6 d w :: modRegRm reg rm :: rm.dispBytes
  | .movIR w reg imm => leadIR w reg :: imm.bytes
  | .movIRM w rm imm => leadOp7 0b1100011#7 w :: modRegRm 0b000#3 rm :: (rm.dispBytes ++ imm.bytes)
  | .addIRM s w rm imm => leadArith s w :: modRegRm 0b000#3 rm :: (rm.dispBytes ++ imm.bytes)
  | .subIRM s w rm imm => leadArith s w :: modRegRm 0b101#3 rm :: (rm.dispBytes ++ imm.bytes)
  | .cmpIRM s w rm imm => leadArith s w :: modRegRm 0b111#3 rm :: (rm.dispBytes ++ imm.bytes)
  | .addIA w imm => leadOp7 0b0000010#7 w :: imm.bytes
  | .subIA w imm => leadOp7 0b0010110#7 w :: imm.bytes
  | .cmpIA w imm => leadOp7 0b0011110#7 w :: imm.bytes

/-! ### Words of the opcode table -/

/-- The bytes of a header value of spec/opcode_table.json, then zeros up to the longest instruction. The table
numbers a header as `(byte0 << 8) | byte1` (INDEX.md): its most significant byte comes first. DEDUCED (log
entry 10). -/
def tableWordBytes (nbits w : Nat) : List Byte :=
  let k := (nbits + 7) / 8
  (List.range k).map (fun j => BitVec.ofNat 8 (w >>> (8 * (k - 1 - j))))
    ++ List.replicate (maxInstrLength - k) 0x00#8

/-- The instruction the decoder reads from a header value of the opcode table, with the build parameters the block
has after reset. -/
def decodeTableWord (nbits w : Nat) : Option Instr :=
  match decode Config.params (tableWordBytes nbits w) with
  | .ok i _ => some i
  | .reject _ => none

end Sys2Proof
end

