-- ==== Sys2Proof/Machine/Flags.lean ====
section
/-! DEFINITION. The flags. The block has no status flag and no instruction writes one (R27): the flags it has are
the decode flags `d`, `w` and `s` of one instruction (R19), and this file holds what each of them selects. -/

namespace Sys2Proof.Machine

/-- `zext_16` (R15). -/
def zext16 (b : Byte) : Word := b.zeroExtend 16

/-- `sext_16` (R15). -/
def sext16 (b : Byte) : Word := b.signExtend 16

/-- `SIZE_TEXT[w]` (R109). -/
def sizeText : Width → String
  | .byte => "byte"
  | .word => "word"

/-- The value of an IR or IA immediate: never sign-extended (R73). -/
def immValueW : ImmData → Word
  | .one b => zext16 b
  | .two v => v

/-- The value of an IRM immediate: one byte is sign-extended if and only if `s = 1` and `w = 1` (R74). -/
def immValueIRM (s : Bool) (w : Width) : ImmData → Word
  | .one b => if s && decide (w = .word) then sext16 b else zext16 b
  | .two v => v

/-- The direction flag places two operands: `d = 1` makes the reg operand the destination (R77, R78). Answers
(destination, source). -/
def placeByDirection {α : Type} (d : Bool) (regOperand rmOperand : α) : α × α :=
  if d then (regOperand, rmOperand) else (rmOperand, regOperand)

end Sys2Proof.Machine
end

