-- ==== Sys2Proof/Machine/Operands.lean ====
section
/-! DEFINITION. The operand datapath of 40_operand_datapath.md: the two naming tables, the displacement value, the
operand resolver, and the instruction record each format's decoder completes (R31, R35). -/

namespace Sys2Proof.Machine

/-- One row of `REG_NAME` (R69). -/
def regNames : Width → Vector String 8
  | .byte => #v["al", "cl", "dl", "bl", "ah", "ch", "dh", "bh"]
  | .word => #v["ax", "cx", "dx", "bx", "sp", "bp", "si", "di"]

/-- `REG_NAME[w][sel]` (R69). -/
def regName (w : Width) (sel : Sel) : String := (regNames w)[sel.toNat]'(sel.isLt)

/-- The accumulator of a width: `al` or `ax` (R71). -/
def accumulatorName (w : Width) : String := regName w 0b000#3

/-- The rows of `EA_EXPR` (R70). -/
def eaExprs : Vector String 8 :=
  #v["bx + si", "bx + di", "bp + si", "bp + di", "si", "di", "bp", "bx"]

/-- `EA_EXPR[rm]` (R70). -/
def eaExpr (rm : Sel) : String := eaExprs[rm.toNat]'(rm.isLt)

/-- An operand slot (R31). An immediate always carries a value (R33, R113). -/
inductive Operand where
  | reg (name : String)
  | mem (expr : String) (disp : Word)
  | direct (addr : Word)
  | imm (value : Word)
  deriving DecidableEq, Repr

/-- The instruction record (R31): a local value of one step (R34). -/
structure Record where
  mnem : Mnemonic
  w : Width
  d : Bool
  s : Bool
  mode : Mode
  reg : Sel
  rm : Sel
  disp : Word
  dst : Operand
  src : Operand
  deriving DecidableEq, Repr

/-- The displacement the Displacement Reader answers (R72): an 8-bit one is sign-extended. -/
def dispValue : RmOperand → Word
  | .reg _ => 0x0000#16
  | .mem0 _ => 0x0000#16
  | .direct a => a
  | .mem8 _ d => sext16 d
  | .mem16 _ d => d

/-- `resolve_rm` (R76). -/
def resolveRm (mode : Mode) (rm : Sel) (w : Width) (disp : Word) : Operand :=
  match mode with
  | .regd => .reg (regName w rm)
  | .mem0 => if rm = 0b110#3 then .direct disp else .mem (eaExpr rm) 0x0000#16
  | .mem8 => .mem (eaExpr rm) disp
  | .mem16 => .mem (eaExpr rm) disp

/-- The rm operand of an instruction, resolved (R76). -/
def rmOperand (w : Width) (rm : RmOperand) : Operand := resolveRm rm.mode rm.sel w (dispValue rm)

/-- The two slots of the RM format, (destination, source): one is the reg-selector's register, the other the rm
operand, placed by `d`, in the register-direct mode (R77) as in a memory mode (R78). -/
def resolveRegRm (d : Bool) (w : Width) (reg : Sel) (rm : RmOperand) : Operand × Operand :=
  placeByDirection d (.reg (regName w reg)) (rmOperand w rm)

/-- The record of the RM format (R81, R35). -/
def recordRM (m : Mnemonic) (d : Bool) (w : Width) (reg : Sel) (rm : RmOperand) : Record where
  mnem := m
  w := w
  d := d
  s := false
  mode := rm.mode
  reg := reg
  rm := rm.sel
  disp := dispValue rm
  dst := (resolveRegRm d w reg rm).1
  src := (resolveRegRm d w reg rm).2

/-- The record of the IR format (R88, R35). -/
def recordIR (w : Width) (reg : Sel) (imm : ImmData) : Record where
  mnem := .mov
  w := w
  d := true
  s := false
  mode := .regd
  reg := reg
  rm := reg
  disp := 0x0000#16
  dst := .reg (regName w reg)
  src := .imm (immValueW imm)

/-- The record of the IRM format with secondary selector `sel` (R92, R35, R79). -/
def recordIRM (m : Mnemonic) (s : Bool) (w : Width) (sel : Sel) (rm : RmOperand) (imm : ImmData) : Record where
  mnem := m
  w := w
  d := false
  s := s
  mode := rm.mode
  reg := sel
  rm := rm.sel
  disp := dispValue rm
  dst := rmOperand w rm
  src := .imm (immValueIRM s w imm)

/-- The record of the IA format (R99, R35). -/
def recordIA (m : Mnemonic) (w : Width) (imm : ImmData) : Record where
  mnem := m
  w := w
  d := true
  s := false
  mode := .regd
  reg := 0b000#3
  rm := 0b000#3
  disp := 0x0000#16
  dst := .reg (accumulatorName w)
  src := .imm (immValueW imm)

/-- The record of every instruction, for statements about all of them; the meanings name theirs directly. -/
def recordOf : Instr → Record
  | .movRM d w reg rm => recordRM .mov d w reg rm
  | .addRM d w reg rm => recordRM .add d w reg rm
  | .subRM d w reg rm => recordRM .sub d w reg rm
  | .cmpRM d w reg rm => recordRM .cmp d w reg rm
  | .movIR w reg imm => recordIR w reg imm
  | .movIRM w rm imm => recordIRM .mov false w 0b000#3 rm imm
  | .addIRM s w rm imm => recordIRM .add s w 0b000#3 rm imm
  | .subIRM s w rm imm => recordIRM .sub s w 0b101#3 rm imm
  | .cmpIRM s w rm imm => recordIRM .cmp s w 0b111#3 rm imm
  | .addIA w imm => recordIA .add w imm
  | .subIA w imm => recordIA .sub w imm
  | .cmpIA w imm => recordIA .cmp w imm

end Sys2Proof.Machine
end

