-- ==== Sys2Proof/Machine/Renderer.lean ====
section
/-! DEFINITION. The instruction renderer (45_renderer.md): a pure function of the record and of
`DIRECT_ADDR_QUALIFIER`, and the byte image of the output (R116). -/

namespace Sys2Proof.Machine

/-- `dec(x)` (R115). The spec asks for integers in −32768..32767, and offsets and lengths of a diagnostic use it
too (R134). -/
def dec (x : Int) : String :=
  if x < 0 then "-" ++ String.ofList (Nat.toDigits 10 x.natAbs) else String.ofList (Nat.toDigits 10 x.natAbs)

/-- `s16(v)` (R15). -/
def s16 (v : Word) : Int := v.toInt

/-- `MNEM_TEXT` (R107). -/
def mnemText : Mnemonic → String
  | .mov => "mov"
  | .add => "add"
  | .sub => "sub"
  | .cmp => "cmp"

/-- The size qualifier of a direct-address operand (R111). -/
def directQualifier (q : DirectAddrQualifier) (w : Width) : String :=
  match q with
  | .alwaysWord => "word"
  | .byWidth => sizeText w

/-- The appended displacement of a memory operand: a zero one is omitted (R110). -/
def dispText (disp : Word) : String :=
  if disp = 0x0000#16 then "" else " + " ++ dec (s16 disp)

/-- `render_op` (R108, R110, R111, R112). -/
def renderOp (q : DirectAddrQualifier) (w : Width) : Operand → String
  | .reg name => name
  | .mem expr disp => sizeText w ++ " [" ++ expr ++ dispText disp ++ "]"
  | .direct addr => directQualifier q w ++ " [" ++ dec (s16 addr) ++ "]"
  | .imm v => dec (s16 v)

/-- `render_line` (R105, R106). -/
def renderLine (q : DirectAddrQualifier) (r : Record) : String :=
  mnemText r.mnem ++ " " ++ renderOp q r.w r.dst ++ ", " ++ renderOp q r.w r.src

/-- The byte image of an output: each line ended by one line feed (R116). -/
def outputImage (out : List String) : String := out.foldr (fun line image => line ++ "\n" ++ image) ""

end Sys2Proof.Machine
end

