-- ==== Sys2Proof/Machine/Ops.lean ====
section
/-! DEFINITION. The named operations over the state: reading the input, emitting a line, advancing the cursor,
stopping the pass (the one exception entry of this hardware, R121, R137), finishing a decoded instruction (R121),
and what the caller does before a pass (R147). -/

namespace Sys2Proof.Machine

/-- `IN[i]` for an index below `N`; no byte exists at or after `N` (R38, R45). -/
def State.readInput (s : State) (i : Nat) : Option Byte :=
  if i < s.inputLength then some (s.input.read i) else none

/-- The bytes that exist from the cursor on, at most as many as the longest instruction has (R64; log entry 18). -/
def State.fetch (s : State) : List Byte :=
  (List.range maxInstrLength).filterMap (fun k => s.readInput (s.cursor + k))

/-- `emit(line)`: one line appended to the sink (R16, R23). -/
def State.emit (s : State) (line : String) : State := { s with out := s.out ++ [line] }

/-- The cursor moved past `k` consumed bytes (R122). -/
def State.advance (s : State) (k : Nat) : State := { s with cursor := s.cursor + k }

/-- The stop transition (R121, R125, R137): `run` and `diag` are written, everything else stays. Its return is a
new pass only (R138): `State.startPass`. -/
def State.stop (s : State) (reason : StopReason) (detail : StopDetail) : State :=
  { s with
    run := .stopped
    diag := some { reason := reason, offset := s.cursor, byte := s.input.read s.cursor, detail := detail } }

/-- The stop reason of a rejection (R130). -/
def rejectReason : Reject → StopReason
  | .unrecognizedOpcode => .unrecognizedOpcode
  | .decoderFailure _ => .decoderFailure
  | .truncated _ _ => .truncated

/-- The `detail` of a rejection (R134). -/
def rejectDetail : Reject → StopDetail
  | .unrecognizedOpcode => .none
  | .decoderFailure none => .none
  | .decoderFailure (some sel) => .selector sel
  | .truncated need remain => .lengths need remain

/-- The pass stopped for a rejection (R121). -/
def State.stopWith (s : State) (r : Reject) : State := s.stop (rejectReason r) (rejectDetail r)

/-- `finish` on a completed record with consumption `k` (R121): one whole line, then the advance (R122). The guard
on zero consumption is the source's (R124); no instruction's length is zero. -/
def State.finish (s : State) (r : Record) (k : Nat) : Host.Outcome State Fault Refusal :=
  if k = 0 then .next (s.stopWith (.decoderFailure none))
  else .next ((s.emit (renderLine s.params.directAddrQualifier r)).advance k)

/-- The numeric code of a stop reason (R130). -/
def StopReason.code : StopReason → Nat
  | .unrecognizedOpcode => 1
  | .decoderFailure => 2
  | .truncated => 3

/-- The start of a pass on a given input: the caller loads the bytes and `N` (R147), and the block resets and
writes the two header lines (R144, R145). The build parameters stay. -/
def State.startPass (s : State) (bytes : List Byte) : State where
  cursor := 0
  run := .running
  out := headerLines s.params
  diag := none
  input := Memory.writeBytes [] 0 bytes
  inputLength := bytes.length
  params := s.params

/-- The state with `bytes` placed at the cursor, `N` at least their end, and the loop RUNNING (log entry 20). -/
def State.placeAtCursor (s : State) (bytes : List Byte) : State :=
  { s with
    run := .running
    input := s.input.writeBytes s.cursor bytes
    inputLength := max s.inputLength (s.cursor + bytes.length) }

end Sys2Proof.Machine
end

