-- ==== Sys2Proof/Machine/DecodeLoop.lean ====
section
/-! DEFINITION. What one step of the Decode Loop selects (R119, R120): nothing, a stop, or a decoded instruction. -/

namespace Sys2Proof.Machine

/-- What the loop does at a state. -/
inductive Selected where
  /-- No step is enabled (R119). -/
  | disabled (f : Fault)
  /-- The pass stops (R121). -/
  | stop (r : Reject)
  /-- The instruction decoded at the cursor runs (R121). -/
  | run (i : Instr)
  deriving DecidableEq, Repr

/-- A step is enabled exactly when `run = RUNNING` and `cursor < N` (R119); it then decodes at the cursor (R120). -/
def State.select (s : State) : Selected :=
  match s.run with
  | .stopped => .disabled .passStopped
  | .running =>
    if s.cursor < s.inputLength then
      match decode s.params s.fetch with
      | .ok i _ => .run i
      | .reject r => .stop r
    else if s.cursor = s.inputLength then .disabled .passDone
    else .disabled .cursorPastEnd

end Sys2Proof.Machine
end

