-- ==== Sys2Proof/Machine/ImmToAcc.lean ====
section
/-! DEFINITION. The meanings of the immediate → accumulator family (44_imm_to_acc.md). -/

namespace Sys2Proof.Machine

/-- ADD imm → acc (R101). -/
def execAddIA (w : Width) (imm : ImmData) (s : State) : Host.Outcome State Fault Refusal :=
  s.finish (recordIA .add w imm) (1 + imm.length)

/-- SUB imm → acc (R102). -/
def execSubIA (w : Width) (imm : ImmData) (s : State) : Host.Outcome State Fault Refusal :=
  s.finish (recordIA .sub w imm) (1 + imm.length)

/-- CMP imm → acc (R103). -/
def execCmpIA (w : Width) (imm : ImmData) (s : State) : Host.Outcome State Fault Refusal :=
  s.finish (recordIA .cmp w imm) (1 + imm.length)

end Sys2Proof.Machine
end

