-- ==== Sys2Proof/Machine/ImmToReg.lean ====
section
/-! DEFINITION. The meaning of the immediate → register family (42_imm_to_reg.md). -/

namespace Sys2Proof.Machine

/-- MOV imm → reg (R89). -/
def execMovIR (w : Width) (reg : Sel) (imm : ImmData) (s : State) : Host.Outcome State Fault Refusal :=
  s.finish (recordIR w reg imm) (1 + imm.length)

end Sys2Proof.Machine
end

