-- ==== Sys2Proof/Machine/ImmToRm.lean ====
section
/-! DEFINITION. The meanings of the immediate → register/memory family (43_imm_to_rm.md). -/

namespace Sys2Proof.Machine

/-- MOV imm → r/m: `s = 0` always (R94, R91). -/
def execMovIRM (w : Width) (rm : RmOperand) (imm : ImmData) (s : State) :
    Host.Outcome State Fault Refusal :=
  s.finish (recordIRM .mov false w 0b000#3 rm imm) (2 + rm.dispLen + imm.length)

/-- ADD imm → r/m (R95). -/
def execAddIRM (sx : Bool) (w : Width) (rm : RmOperand) (imm : ImmData) (s : State) :
    Host.Outcome State Fault Refusal :=
  s.finish (recordIRM .add sx w 0b000#3 rm imm) (2 + rm.dispLen + imm.length)

/-- SUB imm → r/m (R96). -/
def execSubIRM (sx : Bool) (w : Width) (rm : RmOperand) (imm : ImmData) (s : State) :
    Host.Outcome State Fault Refusal :=
  s.finish (recordIRM .sub sx w 0b101#3 rm imm) (2 + rm.dispLen + imm.length)

/-- CMP imm → r/m (R97). -/
def execCmpIRM (sx : Bool) (w : Width) (rm : RmOperand) (imm : ImmData) (s : State) :
    Host.Outcome State Fault Refusal :=
  s.finish (recordIRM .cmp sx w 0b111#3 rm imm) (2 + rm.dispLen + imm.length)

end Sys2Proof.Machine
end

