-- ==== Sys2Proof/Machine/RegRm.lean ====
section
/-! DEFINITION. The meanings of the register/memory ↔ register family (41_reg_rm.md). Each emits its line and
advances the cursor by its length; none writes a flag or a register of the decoded machine (R25, R27). -/

namespace Sys2Proof.Machine

/-- MOV r/m ↔ reg (R83). -/
def execMovRM (d : Bool) (w : Width) (reg : Sel) (rm : RmOperand) (s : State) :
    Host.Outcome State Fault Refusal :=
  s.finish (recordRM .mov d w reg rm) (2 + rm.dispLen)

/-- ADD r/m ↔ reg (R84). -/
def execAddRM (d : Bool) (w : Width) (reg : Sel) (rm : RmOperand) (s : State) :
    Host.Outcome State Fault Refusal :=
  s.finish (recordRM .add d w reg rm) (2 + rm.dispLen)

/-- SUB r/m ↔ reg (R85). -/
def execSubRM (d : Bool) (w : Width) (reg : Sel) (rm : RmOperand) (s : State) :
    Host.Outcome State Fault Refusal :=
  s.finish (recordRM .sub d w reg rm) (2 + rm.dispLen)

/-- CMP r/m ↔ reg (R86). -/
def execCmpRM (d : Bool) (w : Width) (reg : Sel) (rm : RmOperand) (s : State) :
    Host.Outcome State Fault Refusal :=
  s.finish (recordRM .cmp d w reg rm) (2 + rm.dispLen)

end Sys2Proof.Machine
end

