-- ==== Sys2Proof/Machine/Dispatch.lean ====
section
/-! DEFINITION. The meaning of every instruction, one arm per constructor of `Instr`. -/

namespace Sys2Proof.Machine

def exec (i : Instr) (s : State) : Host.Outcome State Fault Refusal :=
  match i with
  | .movRM d w reg rm => Sys2Proof.Machine.execMovRM d w reg rm s
  | .addRM d w reg rm => Sys2Proof.Machine.execAddRM d w reg rm s
  | .subRM d w reg rm => Sys2Proof.Machine.execSubRM d w reg rm s
  | .cmpRM d w reg rm => Sys2Proof.Machine.execCmpRM d w reg rm s
  | .movIR w reg imm => Sys2Proof.Machine.execMovIR w reg imm s
  | .movIRM w rm imm => Sys2Proof.Machine.execMovIRM w rm imm s
  | .addIRM sx w rm imm => Sys2Proof.Machine.execAddIRM sx w rm imm s
  | .subIRM sx w rm imm => Sys2Proof.Machine.execSubIRM sx w rm imm s
  | .cmpIRM sx w rm imm => Sys2Proof.Machine.execCmpIRM sx w rm imm s
  | .addIA w imm => Sys2Proof.Machine.execAddIA w imm s
  | .subIA w imm => Sys2Proof.Machine.execSubIA w imm s
  | .cmpIA w imm => Sys2Proof.Machine.execCmpIA w imm s

end Sys2Proof.Machine
end

