-- ==== Sys2Proof/Machine/Step.lean ====
section
/-! DEFINITION. One step of the Decode Loop (R121), and an instruction placed where the next step decodes. -/

namespace Sys2Proof.Machine

/-- One step (R121). Where none is enabled (R119) it answers a fault that says so. -/
def step (s : State) : Host.Outcome State Fault Refusal :=
  match s.select with
  | .disabled f => .fault f
  | .stop r => .next (s.stopWith r)
  | .run i => exec i s

/-- The state whose next step runs the instruction of a header value of spec/opcode_table.json (log entries 10
and 20). -/
def State.withFetchWord (s : State) (nbits w : Nat) : State := s.placeAtCursor (tableWordBytes nbits w)

end Sys2Proof.Machine
end

