-- ==== Sys2Proof/Machine/Diagnostic.lean ====
section
/-! DEFINITION. The text of a diagnostic (R134), which the spec calls non-normative: no step writes it into `out`
(R135). -/

namespace Sys2Proof.Machine

/-- The `n` low binary digits of a number, most significant first. -/
def binDigits : Nat → Nat → String
  | 0, _ => ""
  | n + 1, v => (if v.testBit n then "1" else "0") ++ binDigits n v

/-- `bin8(b)` (R134). -/
def bin8 (b : Byte) : String := binDigits 8 b.toNat

/-- `bin3(sel)` (R134). -/
def bin3 (sel : Sel) : String := binDigits 3 sel.toNat

/-- The words before the offset, for each reason (R134). -/
def reasonText : StopReason → String
  | .unrecognizedOpcode => "unrecognized opcode"
  | .decoderFailure => "decoder failure"
  | .truncated => "truncated instruction"

/-- The words after the bit pattern, for each detail (R134). -/
def detailText : StopDetail → String
  | .none => ""
  | .selector sel => " (selector " ++ bin3 sel ++ ")"
  | .lengths need remain => " (needs " ++ dec need ++ " bytes, " ++ dec remain ++ " remain)"

/-- `diag_text(info)` (R134). -/
def diagText (info : StopInfo) : String :=
  reasonText info.reason ++ " at offset " ++ dec info.offset ++ ": " ++ bin8 info.byte ++ detailText info.detail

end Sys2Proof.Machine
end

