-- ==== Sys2Proof/Machine/Pseudocode.lean ====
section
/-! DEFINITION. The spec's own pseudocode of the decoders and of the step (R64, R72 to R75, R81, R88, R92, R99, R121,
R134), written over indices of `IN` as the spec writes it. The machine decodes to an instruction first
(Decode.lean); the statements say that it agrees with this text. -/

namespace Sys2Proof.Machine.Pseudocode

/-- What a decoder returns: `Ok(record, consumed)` or `Fail(reason)` (R81). -/
inductive Decoded where
  | ok (r : Record) (k : Nat)
  | fail (reason : StopReason)
  deriving DecidableEq, Repr

/-- `avail(i, n)` (R75). -/
def avail (s : State) (i n : Nat) : Bool := i + n ≤ s.inputLength

/-- `MemRead(a, 1)` (R16). -/
def memRead1 (s : State) (a : Nat) : Byte := s.input.read a

/-- `MemRead(a, 2)`, which is `IN[a+1]` above `IN[a]` (R16, R41). -/
def memRead2 (s : State) (a : Nat) : Word := s.input.read (a + 1) ++ s.input.read a

/-- `read_disp(p, mode, rm)` (R72). -/
def readDisp (s : State) (p : Nat) (mode : Mode) (rm : Sel) : Word × Nat :=
  match mode with
  | .regd => (0x0000#16, 0)
  | .mem0 => if rm = 0b110#3 then (memRead2 s p, 2) else (0x0000#16, 0)
  | .mem8 => (sext16 (memRead1 s p), 1)
  | .mem16 => (memRead2 s p, 2)

/-- `read_imm_w(p, w)` (R73). -/
def readImmW (s : State) (p : Nat) (w : Width) : Word × Nat :=
  match w with
  | .word => (memRead2 s p, 2)
  | .byte => (zext16 (memRead1 s p), 1)

/-- `read_imm_irm(p, w, s)` (R74). -/
def readImmIRM (s : State) (p : Nat) (w : Width) (sx : Bool) : Word × Nat :=
  if s.params.immRmWideData ∧ w = .word ∧ sx = false then (memRead2 s p, 2)
  else if sx = true ∧ w = .word then (sext16 (memRead1 s p), 1)
  else (zext16 (memRead1 s p), 1)

/-- `decode_RM(c, mnem)` (R81, with R77 and R78 for the two slots). -/
def decodeRM (s : State) (c : Nat) (m : Mnemonic) : Decoded :=
  if !avail s c 2 then .fail .truncated
  else
    let b0 := s.input.read c
    let b1 := s.input.read (c + 1)
    let d := byteBit b0 1
    let w := Width.ofBit (byteBit b0 0)
    let mode := Mode.ofField (modField b1)
    let reg := regField b1
    let rm := rmField b1
    let n := 2 + dispLen mode rm
    if !avail s c n then .fail .truncated
    else
      let (disp, k) := readDisp s (c + 2) mode rm
      let r := Operand.reg (regName w reg)
      let o := resolveRm mode rm w disp
      let (dst, src) := if d then (r, o) else (o, r)
      .ok { mnem := m, w := w, d := d, s := false, mode := mode, reg := reg, rm := rm, disp := disp,
            dst := dst, src := src } (2 + k)

/-- `decode_IR(c)` (R88). -/
def decodeIR (s : State) (c : Nat) : Decoded :=
  let b0 := s.input.read c
  let w := Width.ofBit (byteBit b0 3)
  let reg : Sel := b0.extractLsb' 0 3
  let n := 1 + (if w = .word then 2 else 1)
  if !avail s c n then .fail .truncated
  else
    let (v, k) := readImmW s (c + 1) w
    .ok { mnem := .mov, w := w, d := true, s := false, mode := .regd, reg := reg, rm := reg,
          disp := 0x0000#16, dst := .reg (regName w reg), src := .imm v } (1 + k)

/-- `decode_IRM(c, group)` (R92). -/
def decodeIRM (s : State) (c : Nat) (g : ImmGroup) : Decoded :=
  if !avail s c 2 then .fail .truncated
  else
    let b0 := s.input.read c
    let b1 := s.input.read (c + 1)
    let w := Width.ofBit (byteBit b0 0)
    let sx := if g = .arith then byteBit b0 1 else false
    let mode := Mode.ofField (modField b1)
    let sel := regField b1
    let rm := rmField b1
    match secondary g sel with
    | none => .fail .decoderFailure
    | some m =>
      let il := if s.params.immRmWideData ∧ w = .word ∧ sx = false then 2 else 1
      let n := 2 + dispLen mode rm + il
      if !avail s c n then .fail .truncated
      else
        let (disp, k) := readDisp s (c + 2) mode rm
        let (v, j) := readImmIRM s (c + 2 + k) w sx
        .ok { mnem := m, w := w, d := false, s := sx, mode := mode, reg := sel, rm := rm, disp := disp,
              dst := resolveRm mode rm w disp, src := .imm v } (2 + k + j)

/-- The mnemonic of an IA entry (R60). -/
def accMnemonic : AccMnemonic → Mnemonic
  | .add => .add
  | .sub => .sub
  | .cmp => .cmp

/-- `decode_IA(c, mnem)` (R99). -/
def decodeIA (s : State) (c : Nat) (m : AccMnemonic) : Decoded :=
  let b0 := s.input.read c
  let w := Width.ofBit (byteBit b0 0)
  let n := 1 + (if w = .word then 2 else 1)
  if !avail s c n then .fail .truncated
  else
    let (v, k) := readImmW s (c + 1) w
    .ok { mnem := accMnemonic m, w := w, d := true, s := false, mode := .regd, reg := 0b000#3, rm := 0b000#3,
          disp := 0x0000#16, dst := .reg (regName w 0b000#3), src := .imm v } (1 + k)

/-- `len` of the instruction at `c`, from its leading byte and its second byte (R64); 0 where the leading byte has
no format. -/
def fullLength (s : State) (c : Nat) : Nat :=
  let b0 := s.input.read c
  let b1 := s.input.read (c + 1)
  let dl := dispLen (Mode.ofField (modField b1)) (rmField b1)
  match dispatch b0 with
  | .unrecognized => 0
  | .rm _ => 2 + dl
  | .ir => 1 + (if byteBit b0 3 then 2 else 1)
  | .ia _ => 1 + (if byteBit b0 0 then 2 else 1)
  | .irm g =>
    let sEff := if g = .arith then byteBit b0 1 else false
    2 + dl + (if s.params.immRmWideData ∧ byteBit b0 0 = true ∧ sEff = false then 2 else 1)

/-- Whether the leading byte at `c` has a 2-byte header, RM or IRM (R54, R56). -/
def twoByteHeader (s : State) (c : Nat) : Bool :=
  match dispatch (s.input.read c) with
  | .rm _ => true
  | .irm _ => true
  | _ => false

/-- `need(c)` (R134). -/
def need (s : State) (c : Nat) : Nat :=
  if twoByteHeader s c ∧ s.inputLength - c < 2 then 2 else fullLength s c

/-- `detail(reason, c)` (R134): a `DECODER_FAILURE` carries the selector in the IRM selector case only. -/
def detail (s : State) (reason : StopReason) (c : Nat) : StopDetail :=
  match reason with
  | .unrecognizedOpcode => .none
  | .truncated => .lengths (need s c) (s.inputLength - c)
  | .decoderFailure =>
    let sel := regField (s.input.read (c + 1))
    match dispatch (s.input.read c) with
    | .irm g => if secondary g sel = none then .selector sel else .none
    | _ => .none

/-- `stop(σ, reason, c, b)` (R121). -/
def stop (s : State) (reason : StopReason) (c : Nat) (b : Byte) : State :=
  { s with run := .stopped, diag := some { reason := reason, offset := c, byte := b, detail := detail s reason c } }

/-- `finish(σ, c, b, r)` (R121). -/
def finish (s : State) (c : Nat) (b : Byte) (r : Decoded) : State :=
  match r with
  | .fail reason => stop s reason c b
  | .ok _ 0 => stop s .decoderFailure c b
  | .ok rec (k + 1) =>
    { s with out := s.out ++ [renderLine s.params.directAddrQualifier rec], cursor := c + (k + 1) }

/-- `step(σ)`, defined where `run = RUNNING` and `cursor < N` (R121). -/
def step (s : State) : State :=
  let c := s.cursor
  let b := s.input.read c
  match dispatch b with
  | .unrecognized => stop s .unrecognizedOpcode c b
  | .rm m => finish s c b (decodeRM s c m)
  | .ir => finish s c b (decodeIR s c)
  | .irm g => finish s c b (decodeIRM s c g)
  | .ia m => finish s c b (decodeIA s c m)

end Sys2Proof.Machine.Pseudocode
end

