-- ==== Sys2Proof/Safety.lean ====
section
/-! DEFINITION. What a safe state and a whole pass of the decoder block are, in the terms the statements use. -/

namespace Sys2Proof.Machine

/-- A step is enabled (R119). -/
abbrev State.enabled (s : State) : Prop := s.run = .running ∧ s.cursor < s.inputLength

/-- DONE: the pass ended at the end of input (R22). -/
abbrev State.done (s : State) : Prop := s.run = .running ∧ s.cursor = s.inputLength

/-- The bytes already consumed: `IN[0 .. cursor−1]`. -/
def State.consumed (s : State) : List Byte := (List.range s.cursor).map s.input.read

/-- The bytes not yet consumed: `IN[cursor .. N−1]`. -/
def State.unread (s : State) : List Byte :=
  (List.range (s.inputLength - s.cursor)).map (fun k => s.input.read (s.cursor + k))

/-- The input buffer is in canonical form and holds no byte at or after `N` (R38, R46; log entry 5). -/
abbrev State.inputOk (s : State) : Prop := s.input.wf ∧ ∀ c ∈ s.input, c.1 < s.inputLength

/-- A detail of the form its reason has (R130, R134), given how many bytes remain. -/
def StopDetail.fits (remain : Nat) : StopReason → StopDetail → Bool
  | .unrecognizedOpcode, .none => true
  | .decoderFailure, .none => true
  | .decoderFailure, .selector _ => true
  | .truncated, .lengths need have' => have' = remain && have' < need && need ≤ maxInstrLength
  | _, _ => false

/-- The diagnostic agrees with `run`, the cursor and the input (R22, R24, R126, R137). -/
def State.statusOk (s : State) : Bool :=
  match s.run, s.diag with
  | .running, none => true
  | .stopped, some info =>
    info.offset = s.cursor && s.cursor < s.inputLength && info.byte = s.input.read s.cursor
      && StopDetail.fits (s.inputLength - s.cursor) info.reason info.detail
  | _, _ => false

/-- The invariant of the block: canonical input (R38), a cursor within it (R20, R123), a diagnostic that agrees
with `run` (R22, R24), the two header lines first (R145), and a legal header comment (R117). -/
structure State.Inv (s : State) : Prop where
  inputOk : s.inputOk
  cursorInRange : s.cursor ≤ s.inputLength
  statusOk : s.statusOk = true
  headersFirst : s.out.take 2 = headerLines s.params
  headerOk : s.params.headerOk = true

/-- The line of an instruction in a build. -/
def lineOf (p : Params) (i : Instr) : String := renderLine p.directAddrQualifier (recordOf i)

/-- The output is exactly the disassembly of the consumed bytes: the consumed bytes are the encodings of some
well-formed instructions, one after the other, and `out` is the header lines and then their lines in that order
(R129). -/
def State.outputIsDisassembly (s : State) : Prop :=
  ∃ is : List Instr, (∀ i ∈ is, i.wf s.params = true) ∧ s.consumed = is.flatMap encode
    ∧ s.out = headerLines s.params ++ is.map (lineOf s.params)

/-- At most `n` steps, ending where no step is enabled. -/
def runSteps : Nat → State → State
  | 0, s => s
  | n + 1, s =>
    match step s with
    | .next t => runSteps n t
    | .fault _ => s
    | .refused _ => s

/-- A whole pass over an input (R126): the bound is R127's. -/
def State.runPass (s : State) (bytes : List Byte) : State :=
  runSteps ((bytes.length + 1) / 2 + 1) (s.startPass bytes)

end Sys2Proof.Machine
end

