-- ==== Sys2Proof/Certificates/Slice0/Obligations.lean ====
section
/-! DEFINITION. The statements about the decoder block, and the words they are said in. -/

namespace Sys2Proof.Rules

open Sys2Proof.Machine

/-- The text of an instruction line (R106). -/
def lineText (p : Params) (w : Width) (mnemonic : String) (dst src : Operand) : String :=
  mnemonic ++ " " ++ renderOp p.directAddrQualifier w dst ++ ", " ++ renderOp p.directAddrQualifier w src

/-- The state after a successful step: one line more, and the cursor `k` bytes further (R122). -/
def emitted (s : State) (line : String) (k : Nat) : State :=
  { s with out := s.out ++ [line], cursor := s.cursor + k }

/-- The state after a stop at the cursor (R24, R121, R137). -/
def stopped (s : State) (reason : StopReason) (detail : StopDetail) : State :=
  { s with
    run := .stopped
    diag := some { reason := reason, offset := s.cursor, byte := s.input.read s.cursor, detail := detail } }

/-- The 44 recognized leading bytes (R60). -/
def recognized (b : Byte) : Bool :=
  b ≤ 0x05#8 || (0x28#8 ≤ b && b ≤ 0x2D#8) || (0x38#8 ≤ b && b ≤ 0x3D#8) || (0x80#8 ≤ b && b ≤ 0x83#8)
    || (0x88#8 ≤ b && b ≤ 0x8B#8) || (0xB0#8 ≤ b && b ≤ 0xBF#8) || (0xC6#8 ≤ b && b ≤ 0xC7#8)

/-- What the instruction with RM opcode `op6` does at the cursor (R83 to R86): its line and advance where all its
bytes exist, TRUNCATED otherwise (R82). -/
def regRmRule (op6 : BitVec 6) (mnemonic : String) : Prop :=
  ∀ s : State, s.enabled →
    let c := s.cursor
    let b0 := s.input.read c
    let b1 := s.input.read (c + 1)
    let w := Width.ofBit (byteBit b0 0)
    let mode := Mode.ofField (modField b1)
    let rm := rmField b1
    let n := 2 + dispLen mode rm
    let r := Operand.reg (regName w (regField b1))
    let m := resolveRm mode rm w (Pseudocode.readDisp s (c + 2) mode rm).1
    b0.extractLsb' 2 6 = op6 →
      (c + n ≤ s.inputLength →
        step s = .next (emitted s
          (if byteBit b0 1 then lineText s.params w mnemonic r m else lineText s.params w mnemonic m r) n)) ∧
      (c + 2 ≤ s.inputLength → s.inputLength < c + n →
        step s = .next (stopped s .truncated (.lengths n (s.inputLength - c)))) ∧
      (s.inputLength < c + 2 →
        step s = .next (stopped s .truncated (.lengths 2 (s.inputLength - c))))

/-- The leading byte of an IRM group: `100000sw` or `1100011w` (R56, R91). -/
def hasGroupOpcode (g : ImmGroup) (b0 : Byte) : Bool :=
  match g with
  | .arith => b0.extractLsb' 2 6 = 0b100000#6
  | .mov => b0.extractLsb' 1 7 = 0b1100011#7

/-- What an IRM instruction does at the cursor (R94 to R97): its group's leading byte, its selector; the four cases
are its line and advance, and R93's three failures. -/
def immRmRule (g : ImmGroup) (sel : Sel) (mnemonic : String) : Prop :=
  ∀ s : State, s.enabled →
    let c := s.cursor
    let b0 := s.input.read c
    let b1 := s.input.read (c + 1)
    let w := Width.ofBit (byteBit b0 0)
    let sx := signFlag g b0
    let mode := Mode.ofField (modField b1)
    let rm := rmField b1
    let dl := dispLen mode rm
    let n := 2 + dl + (if s.params.immRmWideData ∧ w = .word ∧ sx = false then 2 else 1)
    let m := resolveRm mode rm w (Pseudocode.readDisp s (c + 2) mode rm).1
    let v := (Pseudocode.readImmIRM s (c + 2 + dl) w sx).1
    hasGroupOpcode g b0 = true →
      (regField b1 = sel → c + n ≤ s.inputLength →
        step s = .next (emitted s (lineText s.params w mnemonic m (.imm v)) n)) ∧
      (regField b1 = sel → c + 2 ≤ s.inputLength → s.inputLength < c + n →
        step s = .next (stopped s .truncated (.lengths n (s.inputLength - c)))) ∧
      (secondary g (regField b1) = none → c + 2 ≤ s.inputLength →
        step s = .next (stopped s .decoderFailure (.selector (regField b1)))) ∧
      (s.inputLength < c + 2 →
        step s = .next (stopped s .truncated (.lengths 2 (s.inputLength - c))))

/-- What the instruction with IA opcode `op7` does at the cursor (R101 to R103). -/
def immAccRule (op7 : BitVec 7) (mnemonic : String) : Prop :=
  ∀ s : State, s.enabled →
    let c := s.cursor
    let b0 := s.input.read c
    let w := Width.ofBit (byteBit b0 0)
    let n := if byteBit b0 0 then 3 else 2
    let acc := if byteBit b0 0 then "ax" else "al"
    let v := (Pseudocode.readImmW s (c + 1) w).1
    b0.extractLsb' 1 7 = op7 →
      (c + n ≤ s.inputLength →
        step s = .next (emitted s (mnemonic ++ " " ++ acc ++ ", " ++ dec (s16 v)) n)) ∧
      (s.inputLength < c + n →
        step s = .next (stopped s .truncated (.lengths n (s.inputLength - c))))

/-- The line and the advance of an RM instruction as a term (R106, R77, R78). -/
def regRmResult (mnemonic : String) (d : Bool) (w : Width) (reg : Sel) (rm : RmOperand) (s : State) : State :=
  let r := Operand.reg (regName w reg)
  let m := resolveRm rm.mode rm.sel w (dispValue rm)
  emitted s (if d then lineText s.params w mnemonic r m else lineText s.params w mnemonic m r) (2 + rm.dispLen)

/-- The line and the advance of an IRM instruction as a term (R106, R79). -/
def immRmResult (mnemonic : String) (sx : Bool) (w : Width) (rm : RmOperand) (imm : ImmData) (s : State) : State :=
  emitted s (lineText s.params w mnemonic (resolveRm rm.mode rm.sel w (dispValue rm)) (.imm (immValueIRM sx w imm)))
    (2 + rm.dispLen + imm.length)

/-- The line and the advance of an IA instruction as a term (R106, R71). -/
def immAccResult (mnemonic : String) (w : Width) (imm : ImmData) (s : State) : State :=
  emitted s (mnemonic ++ " " ++ (match w with | .byte => "al" | .word => "ax") ++ ", " ++ dec (s16 (immValueW imm)))
    (1 + imm.length)

/-- A memory or direct-address operand (R33). -/
def isMemory : Operand → Bool
  | .mem _ _ => true
  | .direct _ => true
  | _ => false

/-- R33 on an instruction record; its item 4 holds of the type. -/
def recordInvariants (i : Instr) (r : Record) : Prop :=
  (r.disp ≠ 0x0000#16 → r.mode ≠ .regd ∧ (r.mode = .mem0 → r.rm = 0b110#3)) ∧
  (∀ o a, o = r.dst ∨ o = r.src → o = .direct a → r.mode = .mem0 ∧ r.rm = 0b110#3) ∧
  (∀ o e x, o = r.dst ∨ o = r.src → o = .mem e x → r.mode ≠ .regd ∧ ¬ (r.mode = .mem0 ∧ r.rm = 0b110#3)) ∧
  (∀ v, r.dst ≠ .imm v) ∧
  ((∃ v, r.src = .imm v) ↔ ∀ d w reg rm, i ≠ .movRM d w reg rm ∧ i ≠ .addRM d w reg rm ∧
    i ≠ .subRM d w reg rm ∧ i ≠ .cmpRM d w reg rm) ∧
  ¬ (isMemory r.dst = true ∧ isMemory r.src = true)

/-- The number a list of decimal digits spells. -/
def decimalValue (ds : List Char) : Nat := ds.foldl (fun n c => 10 * n + (c.toNat - '0'.toNat)) 0

/-- A decimal spelling without leading zeros: `0` alone, or digits that do not begin with `0`. -/
def plainDecimal (ds : List Char) : Prop :=
  ds ≠ [] ∧ (∀ c ∈ ds, c.isDigit = true) ∧ (ds.head? = some '0' → ds = ['0'])

/-- The characters an instruction line is made of (R68, R106). -/
def lineAlphabet : List Char := "abcdefghijklmnopqrstuvwxyz0123456789 ,[]+-".toList

end Sys2Proof.Rules

open Sys2Proof Sys2Proof.Machine Sys2Proof.Rules

/-! ### Reset and the start of a pass -/

/-- What reset leaves (R144, R37). The header comment and `CURSOR_BITS` are free (log entries 3 and 4); the empty
input and `N = 0` are the model's choice (log entry 6). -/
def Obligations.ResetStateValues : Prop :=
  State.reset.cursor = 0 ∧ State.reset.run = .running ∧ State.reset.diag = none ∧
  State.reset.out = [Config.headerComment, "bits 16"] ∧ State.reset.params.headerOk = true ∧
  State.reset.params.immRmWideData = false ∧ State.reset.params.directAddrQualifier = .alwaysWord ∧
  State.reset.inputLength = 0 ∧ ∀ i, State.reset.readInput i = none

/-- R145: both header lines, in order, before the first step, on every pass and however it ends. -/
def Obligations.EveryPassBeginsWithTheHeaderLines : Prop :=
  ∀ (s : State) (bytes : List Byte) (n : Nat),
    (s.startPass bytes).out = [s.params.headerComment, "bits 16"] ∧
    [s.params.headerComment, "bits 16"] <+: (runSteps n (s.startPass bytes)).out

/-- The start of a pass: the reset values, and exactly the caller's bytes in `IN` (R37, R144, R147). -/
def Obligations.StartOfPassResetsAndLoads : Prop :=
  ∀ (s : State) (bytes : List Byte),
    let t := s.startPass bytes
    t.cursor = 0 ∧ t.run = .running ∧ t.diag = none ∧ t.params = s.params ∧ t.inputLength = bytes.length ∧
    t.input.wf ∧ ∀ i, t.readInput i = bytes[i]?

/-- With `N = 0` no step is enabled, and the pass ends DONE with the two header lines (the spec derives it, R146). -/
def Obligations.EmptyInputPassIsDone : Prop :=
  ∀ s : State,
    ¬ (s.startPass []).enabled ∧ (s.runPass []).done ∧ (s.runPass []).diag = none ∧
    (s.runPass []).out = [s.params.headerComment, "bits 16"]

/-- The reset state meets the invariant. Two of its clauses rest on the model's choices: the header comment holds no
line break (DEDUCED from R116 and R117, log entry 3), and nothing is loaded, so `N = 0` (log entry 6). -/
def Obligations.ResetMeetsInvariant : Prop := State.reset.Inv

/-- Every start of a pass meets the invariant, for a legal header comment (log entry 3 for its line breaks). -/
def Obligations.StartOfPassMeetsInvariant : Prop :=
  ∀ (s : State) (bytes : List Byte), s.params.headerOk = true → (s.startPass bytes).Inv

/-! ### Invariants of every step -/

/-- Every step keeps the invariant: canonical input, the cursor within it (R20, R123), a diagnostic that agrees with
`run`, the cursor and the input (R22, R24), the header lines first (R145), and a legal header comment (R117; log
entry 3 for its line breaks). -/
def Obligations.EveryStepKeepsInvariant : Prop :=
  ∀ s t : State, s.Inv → step s = .next t → t.Inv

/-- Every step keeps the output the disassembly of the consumed bytes. -/
def Obligations.EveryStepKeepsOutputTheDisassembly : Prop :=
  ∀ s t : State, s.outputIsDisassembly → step s = .next t → t.outputIsDisassembly

/-- After any number of steps of any pass, the lines after the header lines are, one-to-one and in order, the
lines of the instructions whose encodings make up the consumed bytes (the spec derives it, R129). -/
def Obligations.LinesAreTheDecodedInstructionsInOrder : Prop :=
  ∀ (s : State) (bytes : List Byte) (n : Nat), (runSteps n (s.startPass bytes)).outputIsDisassembly

/-- No step changes the input, its length or the parameters (R28, R51). -/
def Obligations.StepNeverChangesTheInput : Prop :=
  ∀ s t : State, step s = .next t →
    t.input = s.input ∧ t.inputLength = s.inputLength ∧ t.params = s.params ∧ ∀ i, t.readInput i = s.readInput i

/-! ### The step relation -/

/-- R119: a step is enabled exactly when `run = RUNNING` and `cursor < N`. -/
def Obligations.StepIsEnabledExactlyWhenRunningBeforeTheEnd : Prop :=
  ∀ s : State, (∃ t, step s = .next t) ↔ (s.run = .running ∧ s.cursor < s.inputLength)

/-- How the model's step says that none is enabled: the model's own fault names (log entries 7 and 8). -/
def Obligations.DisabledStepFaultNamesWhy : Prop :=
  ∀ s : State,
    (s.run = .stopped → step s = .fault .passStopped) ∧
    (s.run = .running → s.cursor = s.inputLength → step s = .fault .passDone) ∧
    (s.run = .running → s.inputLength < s.cursor → step s = .fault .cursorPastEnd)

/-- A step runs the decoded instruction: when the bytes at the cursor decode to `i`, the step is `exec i`, which
itself moves past the instruction's bytes. -/
def Obligations.StepRunsTheDecodedInstruction : Prop :=
  ∀ (s : State) (i : Instr) (rest : List Byte), s.enabled → decode s.params s.fetch = .ok i rest →
    step s = exec i s

/-- When the unread bytes begin with the encoding of a well-formed instruction, the step is `exec` of it. -/
def Obligations.StepRunsTheEncodedInstruction : Prop :=
  ∀ (s : State) (i : Instr), s.run = .running → i.wf s.params = true → encode i <+: s.unread →
    step s = exec i s

/-- An instruction placed at the cursor is the one the next step runs (log entry 20). -/
def Obligations.PlacedInstructionRunsNext : Prop :=
  ∀ (s : State) (i : Instr), s.input.wf → i.wf s.params = true →
    step (s.placeAtCursor (encode i)) = exec i (s.placeAtCursor (encode i))

/-- The step is the spec's own pseudocode (R121 with R72, R73, R74, R81, R88, R92 and R99). -/
def Obligations.StepFollowsThePseudocode : Prop :=
  ∀ s : State, s.enabled → step s = .next (Pseudocode.step s)

/-- R122: a successful step appends exactly one line and advances the cursor by the instruction's length, from two to
six bytes. -/
def Obligations.SuccessfulStepAppendsOneLineAndAdvances : Prop :=
  ∀ s t : State, step s = .next t → t.run = .running →
    ∃ line, 2 ≤ Pseudocode.fullLength s s.cursor ∧ Pseudocode.fullLength s s.cursor ≤ 6 ∧
      t = emitted s line (Pseudocode.fullLength s s.cursor)

/-- R64: the decoder consumes exactly the length that the leading byte and the second byte fix. -/
def Obligations.ConsumptionIsTheEncodedLength : Prop :=
  ∀ (s : State) (i : Instr) (rest : List Byte), s.enabled → decode s.params s.fetch = .ok i rest →
    i.length = Pseudocode.fullLength s s.cursor ∧ (encode i).length = i.length ∧ s.fetch = encode i ++ rest ∧
    2 ≤ i.length ∧ i.length ≤ (if s.params.immRmWideData then 6 else 5)

/-! ### Stops -/

/-- R125: the stop transition writes `run` and `diag` and nothing else, and no step leaves STOPPED. -/
def Obligations.StopWritesRunAndDiagOnceAndIsAbsorbing : Prop :=
  (∀ s t : State, step s = .next t → t.run = .stopped → ∃ reason detail, t = stopped s reason detail) ∧
  ∀ s : State, s.run = .stopped → ∀ t, step s ≠ .next t

/-- R131: a leading byte outside the 44 recognized ones stops the pass with its position and bit pattern. -/
def Obligations.UnrecognizedLeadingByteStops : Prop :=
  ∀ s : State, s.enabled →
    (recognized (s.input.read s.cursor) = false ↔ step s = .next (stopped s .unrecognizedOpcode .none)) ∧
    ∀ detail, step s = .next (stopped s .unrecognizedOpcode detail) → detail = .none

/-- R132: DECODER_FAILURE is raised exactly by the IRM decoder on a selector with no mnemonic. -/
def Obligations.UnsupportedSelectorStops : Prop :=
  ∀ s : State, s.enabled →
    let b0 := s.input.read s.cursor
    let sel := regField (s.input.read (s.cursor + 1))
    let unsupported := s.cursor + 2 ≤ s.inputLength ∧
      (((0x80#8 ≤ b0 ∧ b0 ≤ 0x83#8) ∧ sel ≠ 0b000#3 ∧ sel ≠ 0b101#3 ∧ sel ≠ 0b111#3) ∨
        ((0xC6#8 ≤ b0 ∧ b0 ≤ 0xC7#8) ∧ sel ≠ 0b000#3))
    (unsupported → step s = .next (stopped s .decoderFailure (.selector sel))) ∧
    ((∃ detail, step s = .next (stopped s .decoderFailure detail)) → unsupported)

/-- R136: the first check that fails decides the one stop reason, in the order lookup, header, selector, length; where
none fails the step does not stop. -/
def Obligations.StopReasonFollowsThePriority : Prop :=
  ∀ s : State, s.enabled →
    let b0 := s.input.read s.cursor
    let remain := s.inputLength - s.cursor
    let noSecondByte := Pseudocode.twoByteHeader s s.cursor = true ∧ remain < 2
    let badSelector := ∃ g, dispatch b0 = .irm g ∧ secondary g (regField (s.input.read (s.cursor + 1))) = none
    let short := remain < Pseudocode.fullLength s s.cursor
    (dispatch b0 = .unrecognized → step s = .next (stopped s .unrecognizedOpcode .none)) ∧
    (dispatch b0 ≠ .unrecognized → noSecondByte → step s = .next (stopped s .truncated (.lengths 2 remain))) ∧
    (dispatch b0 ≠ .unrecognized → ¬ noSecondByte → badSelector →
      step s = .next (stopped s .decoderFailure (.selector (regField (s.input.read (s.cursor + 1)))))) ∧
    (dispatch b0 ≠ .unrecognized → ¬ noSecondByte → ¬ badSelector → short →
      step s = .next (stopped s .truncated (.lengths (Pseudocode.fullLength s s.cursor) remain))) ∧
    (dispatch b0 ≠ .unrecognized → ¬ noSecondByte → ¬ badSelector → ¬ short →
      ∃ line, step s = .next (emitted s line (Pseudocode.fullLength s s.cursor)))

/-- The step stops exactly when no well-formed instruction's encoding begins the unread bytes. -/
def Obligations.StepStopsExactlyWhenNoInstructionFits : Prop :=
  ∀ s : State, s.enabled →
    ((∃ r, step s = .next (s.stopWith r)) ↔ ∀ i : Instr, i.wf s.params = true → ¬ encode i <+: s.unread)

/-! ### Decode and encode -/

/-- Decoding an encoded well-formed instruction gives it back, with every operand, and leaves what follows. -/
def Obligations.DecodeOfEncode : Prop :=
  ∀ (p : Params) (i : Instr) (rest : List Byte), i.wf p = true → decode p (encode i ++ rest) = .ok i rest

/-- What decodes is well formed, and its encoding is the bytes it was decoded from. -/
def Obligations.EncodeOfDecode : Prop :=
  ∀ (p : Params) (bytes rest : List Byte) (i : Instr), decode p bytes = .ok i rest →
    i.wf p = true ∧ bytes = encode i ++ rest

/-- Words written out from the spec's encodings decode to the instructions they stand for, at least one of each
family (R87, R90, R98, R104). -/
def Obligations.WrittenWordsDecode : Prop :=
  decode Config.params [0b10001001#8, 0b11011000#8] = .ok (.movRM false .word 0b011#3 (.reg 0b000#3)) [] ∧
  decode Config.params [0b10001001#8, 0b10001100#8, 0xD4#8, 0xFE#8]
    = .ok (.movRM false .word 0b001#3 (.mem16 0b100#3 0xFED4#16)) [] ∧
  decode Config.params [0b00101011#8, 0b11011000#8] = .ok (.subRM true .word 0b011#3 (.reg 0b000#3)) [] ∧
  decode Config.params [0b10111010#8, 0x94#8, 0xF0#8] = .ok (.movIR .word 0b010#3 (.two 0xF094#16)) [] ∧
  decode Config.params [0b10000011#8, 0b11101001#8, 0x08#8] = .ok (.subIRM true .word (.reg 0b001#3) (.one 0x08#8)) [] ∧
  decode Config.params [0b11000110#8, 0b00000011#8, 0x07#8] = .ok (.movIRM .byte (.mem0 0b011#3) (.one 0x07#8)) [] ∧
  decode Config.params [0b00111101#8, 0xFF#8, 0xFF#8] = .ok (.cmpIA .word (.two 0xFFFF#16)) []

/-! ### Whole passes -/

/-- Every pass is over within ⌈N/2⌉ + 1 steps, because every step stops the pass or advances the cursor by at least
two (the spec derives it, R127). -/
def Obligations.EveryPassTerminates : Prop :=
  (∀ s t : State, step s = .next t → t.run = .stopped ∨ s.cursor + 2 ≤ t.cursor) ∧
  ∀ (s : State) (bytes : List Byte),
    ¬ (runSteps ((bytes.length + 1) / 2 + 1) (s.startPass bytes)).enabled

/-- R126: a pass starts from the reset values with the two header lines, runs steps until none is enabled, and ends
DONE (`diag = none`, `cursor = N`) or STOPPED (`diag` holds the offset of the cursor, before the end). -/
def Obligations.EveryPassEndsDoneOrStopped : Prop :=
  ∀ (s : State) (bytes : List Byte),
    let start := s.startPass bytes
    let t := s.runPass bytes
    start.cursor = 0 ∧ start.run = .running ∧ start.out = [s.params.headerComment, "bits 16"] ∧ start.diag = none ∧
    (∃ n, t = runSteps n start) ∧ ¬ t.enabled ∧
    ((t.run = .running ∧ t.diag = none ∧ t.cursor = bytes.length) ∨
    (t.run = .stopped ∧ ∃ info, t.diag = some info ∧ t.cursor = info.offset ∧ info.offset < bytes.length))

/-- Where the unread bytes are the encodings of well-formed instructions, the loop emits exactly their lines, in order,
and ends at the end of input (R129, R149). -/
def Obligations.EncodedStreamIsRenderedWhole : Prop :=
  ∀ (s : State) (is : List Instr), s.run = .running → s.cursor ≤ s.inputLength →
    (∀ i ∈ is, i.wf s.params = true) → s.unread = is.flatMap encode →
    runSteps is.length s = { s with out := s.out ++ is.map (lineOf s.params), cursor := s.inputLength }

/-! ### What a step cannot see -/

/-- No lookahead: only the consumed bytes decide what a successful step does (R36, R44, R52). -/
def Obligations.OnlyConsumedBytesMatter : Prop :=
  ∀ (s t : State) (m : Memory), step s = .next t → t.run = .running →
    (∀ k, s.cursor ≤ k → k < t.cursor → m.read k = s.input.read k) →
    step { s with input := m } = .next { t with input := m }

/-- No byte at or after `N` has an effect, on a successful step or a stop (R45, R133). -/
def Obligations.BytesBeyondTheEndNeverMatter : Prop :=
  ∀ (s t : State) (m : Memory), step s = .next t → (∀ k, k < s.inputLength → m.read k = s.input.read k) →
    step { s with input := m } = .next { t with input := m }

/-- Under R12's premise `N < 2^CURSOR_BITS` a cursor register of that width holds every cursor value, and its
wrapping addition is the model's addition (D2; log entry 4). -/
def Obligations.CursorRegisterNeverWraps : Prop :=
  ∀ s t : State, s.inputLength < 2 ^ s.params.cursorBits → step s = .next t →
    (BitVec.ofNat s.params.cursorBits t.cursor).toNat = t.cursor ∧
    BitVec.ofNat s.params.cursorBits s.cursor + BitVec.ofNat s.params.cursorBits (t.cursor - s.cursor)
      = BitVec.ofNat s.params.cursorBits t.cursor

/-! ### Each instruction's own effect -/

/-- mov, add, sub, cmp r/m ↔ reg complete on every state and operands: their line and their advance. -/
def Obligations.RegRmInstructionsComplete : Prop :=
  ∀ (d : Bool) (w : Width) (reg : Sel) (rm : RmOperand) (s : State),
    exec (.movRM d w reg rm) s = .next (regRmResult "mov" d w reg rm s) ∧
    exec (.addRM d w reg rm) s = .next (regRmResult "add" d w reg rm s) ∧
    exec (.subRM d w reg rm) s = .next (regRmResult "sub" d w reg rm s) ∧
    exec (.cmpRM d w reg rm) s = .next (regRmResult "cmp" d w reg rm s)

/-- mov imm → reg completes on every state and operands. -/
def Obligations.ImmToRegInstructionCompletes : Prop :=
  ∀ (w : Width) (reg : Sel) (imm : ImmData) (s : State),
    exec (.movIR w reg imm) s
      = .next (emitted s ("mov " ++ regName w reg ++ ", " ++ dec (s16 (immValueW imm))) (1 + imm.length))

/-- mov, add, sub, cmp imm → r/m complete on every state and operands; mov never sign-extends. -/
def Obligations.ImmToRmInstructionsComplete : Prop :=
  ∀ (sx : Bool) (w : Width) (rm : RmOperand) (imm : ImmData) (s : State),
    exec (.movIRM w rm imm) s = .next (immRmResult "mov" false w rm imm s) ∧
    exec (.addIRM sx w rm imm) s = .next (immRmResult "add" sx w rm imm s) ∧
    exec (.subIRM sx w rm imm) s = .next (immRmResult "sub" sx w rm imm s) ∧
    exec (.cmpIRM sx w rm imm) s = .next (immRmResult "cmp" sx w rm imm s)

/-- add, sub, cmp imm → acc complete on every state and operands. -/
def Obligations.ImmToAccInstructionsComplete : Prop :=
  ∀ (w : Width) (imm : ImmData) (s : State),
    exec (.addIA w imm) s = .next (immAccResult "add" w imm s) ∧
    exec (.subIA w imm) s = .next (immAccResult "sub" w imm s) ∧
    exec (.cmpIA w imm) s = .next (immAccResult "cmp" w imm s)

/-- The frame of all twelve instructions: they store no byte, write neither `run` nor `diag`, keep every earlier line,
and move the cursor forward only. -/
def Obligations.InstructionsChangeOnlyOutAndCursor : Prop :=
  ∀ (i : Instr) (s t : State), exec i s = .next t →
    t.run = s.run ∧ t.diag = s.diag ∧ t.input = s.input ∧ t.inputLength = s.inputLength ∧ t.params = s.params ∧
    (∀ k, t.readInput k = s.readInput k) ∧ (∃ line, t.out = s.out ++ [line]) ∧
    s.cursor + 2 ≤ t.cursor ∧ t.cursor ≤ s.cursor + maxInstrLength

/-- R83: MOV register/memory ↔ register. -/
def Obligations.MovRegRmFollowsItsRule : Prop := regRmRule 0b100010#6 "mov"

/-- R84: ADD register/memory ↔ register. -/
def Obligations.AddRegRmFollowsItsRule : Prop := regRmRule 0b000000#6 "add"

/-- R85: SUB register/memory ↔ register. -/
def Obligations.SubRegRmFollowsItsRule : Prop := regRmRule 0b001010#6 "sub"

/-- R86: CMP register/memory ↔ register. -/
def Obligations.CmpRegRmFollowsItsRule : Prop := regRmRule 0b001110#6 "cmp"

/-- R89: MOV immediate → register. -/
def Obligations.MovImmToRegFollowsItsRule : Prop :=
  ∀ s : State, s.enabled →
    let c := s.cursor
    let b0 := s.input.read c
    let w := Width.ofBit (byteBit b0 3)
    let n := if byteBit b0 3 then 3 else 2
    let v := (Pseudocode.readImmW s (c + 1) w).1
    b0.extractLsb' 4 4 = 0b1011#4 →
      (c + n ≤ s.inputLength →
        step s = .next (emitted s ("mov " ++ regName w (b0.extractLsb' 0 3) ++ ", " ++ dec (s16 v)) n)) ∧
      (s.inputLength < c + n →
        step s = .next (stopped s .truncated (.lengths n (s.inputLength - c))))

/-- R94: MOV immediate → register/memory. -/
def Obligations.MovImmToRmFollowsItsRule : Prop := immRmRule .mov 0b000#3 "mov"

/-- R95: ADD immediate → register/memory. -/
def Obligations.AddImmToRmFollowsItsRule : Prop := immRmRule .arith 0b000#3 "add"

/-- R96: SUB immediate → register/memory. -/
def Obligations.SubImmToRmFollowsItsRule : Prop := immRmRule .arith 0b101#3 "sub"

/-- R97: CMP immediate → register/memory. -/
def Obligations.CmpImmToRmFollowsItsRule : Prop := immRmRule .arith 0b111#3 "cmp"

/-- R101: ADD immediate → accumulator. -/
def Obligations.AddImmToAccFollowsItsRule : Prop := immAccRule 0b0000010#7 "add"

/-- R102: SUB immediate → accumulator. -/
def Obligations.SubImmToAccFollowsItsRule : Prop := immAccRule 0b0010110#7 "sub"

/-- R103: CMP immediate → accumulator. -/
def Obligations.CmpImmToAccFollowsItsRule : Prop := immAccRule 0b0011110#7 "cmp"

/-! ### Tables, records and text -/

/-- R60 and R62: the contents of the dispatch table, on all 256 leading bytes, and of the secondary dispatch, whose
`fail` entries stop the pass with `DECODER_FAILURE`. -/
def Obligations.DispatchTablesHoldTheirContents : Prop :=
  (∀ b : Byte, dispatch b =
    if b ≤ 0x03#8 then .rm .add
    else if 0x04#8 ≤ b ∧ b ≤ 0x05#8 then .ia .add
    else if 0x28#8 ≤ b ∧ b ≤ 0x2B#8 then .rm .sub
    else if 0x2C#8 ≤ b ∧ b ≤ 0x2D#8 then .ia .sub
    else if 0x38#8 ≤ b ∧ b ≤ 0x3B#8 then .rm .cmp
    else if 0x3C#8 ≤ b ∧ b ≤ 0x3D#8 then .ia .cmp
    else if 0x80#8 ≤ b ∧ b ≤ 0x83#8 then .irm .arith
    else if 0x88#8 ≤ b ∧ b ≤ 0x8B#8 then .rm .mov
    else if 0xB0#8 ≤ b ∧ b ≤ 0xBF#8 then .ir
    else if 0xC6#8 ≤ b ∧ b ≤ 0xC7#8 then .irm .mov
    else .unrecognized) ∧
  ([0, 1, 2, 3, 4, 5, 6, 7].map (fun n => secondary .arith (BitVec.ofNat 3 n))
    = [some .add, none, none, none, none, some .sub, none, some .cmp]) ∧
  ([0, 1, 2, 3, 4, 5, 6, 7].map (fun n => secondary .mov (BitVec.ofNat 3 n))
    = [some .mov, none, none, none, none, none, none, none]) ∧
  (∀ (s : State) (g : ImmGroup), s.enabled → s.cursor + 2 ≤ s.inputLength →
    dispatch (s.input.read s.cursor) = .irm g → secondary g (regField (s.input.read (s.cursor + 1))) = none →
    step s = .next (stopped s .decoderFailure (.selector (regField (s.input.read (s.cursor + 1))))))

/-- R69, R70 and R71: the contents of the naming table and of the expression table, and the accumulator's names. -/
def Obligations.NamingTablesHoldTheirContents : Prop :=
  ([0, 1, 2, 3, 4, 5, 6, 7].map (fun n => regName .byte (BitVec.ofNat 3 n))
    = ["al", "cl", "dl", "bl", "ah", "ch", "dh", "bh"]) ∧
  ([0, 1, 2, 3, 4, 5, 6, 7].map (fun n => regName .word (BitVec.ofNat 3 n))
    = ["ax", "cx", "dx", "bx", "sp", "bp", "si", "di"]) ∧
  ([0, 1, 2, 3, 4, 5, 6, 7].map (fun n => eaExpr (BitVec.ofNat 3 n))
    = ["bx + si", "bx + di", "bp + si", "bp + di", "si", "di", "bp", "bx"]) ∧
  accumulatorName .byte = "al" ∧ accumulatorName .word = "ax"

/-- The invariants of every completed record (R33, two of whose items the spec derives). -/
def Obligations.CompletedRecordsKeepTheirInvariants : Prop := ∀ i : Instr, recordInvariants i (recordOf i)

/-- R108, R109, R110 and R111: how a register, a memory and a direct-address operand render. -/
def Obligations.OperandsRenderAsRuled : Prop :=
  sizeText .byte = "byte" ∧ sizeText .word = "word" ∧
  ∀ (q : DirectAddrQualifier) (w : Width) (name expr : String) (v : Word),
    renderOp q w (.reg name) = name ∧
    renderOp q w (.mem expr 0x0000#16) = sizeText w ++ " [" ++ expr ++ "]" ∧
    (v ≠ 0x0000#16 → renderOp q w (.mem expr v) = sizeText w ++ " [" ++ expr ++ " + " ++ dec v.toInt ++ "]") ∧
    renderOp .alwaysWord w (.direct v) = "word [" ++ dec v.toInt ++ "]" ∧
    renderOp .byWidth w (.direct v) = sizeText w ++ " [" ++ dec v.toInt ++ "]"

/-- R112: how an immediate renders, and the range it renders in. -/
def Obligations.ImmediatesRenderInTheirRange : Prop :=
  (∀ (q : DirectAddrQualifier) (w : Width) (v : Word), renderOp q w (.imm v) = dec v.toInt) ∧ dec 0 = "0" ∧
  (∀ b : Byte, (immValueW (.one b)).toInt = b.toNat) ∧
  (∀ (s : Bool) (w : Width) (b : Byte), ¬ (s = true ∧ w = .word) → (immValueIRM s w (.one b)).toInt = b.toNat) ∧
  (∀ b : Byte, (immValueIRM true .word (.one b)).toInt = b.toInt ∧ -128 ≤ b.toInt ∧ b.toInt ≤ 127) ∧
  ∀ (s : Bool) (w : Width) (v : Word), immValueW (.two v) = v ∧ immValueIRM s w (.two v) = v ∧
    -32768 ≤ v.toInt ∧ v.toInt ≤ 32767

/-- `dec` is the base-10 spelling: a leading `-` exactly for negatives, then digits without leading zeros that spell
the absolute value. R115 says so from -32768 to 32767; that it holds of every integer is the model's choice (DEDUCED,
log entry 25). -/
def Obligations.DecimalSpellingIsFaithful : Prop :=
  ∀ x : Int, ∃ ds : List Char, plainDecimal ds ∧ decimalValue ds = x.natAbs ∧
    (dec x).toList = if x < 0 then '-' :: ds else ds

/-- Every instruction line is made of the grammar's characters, and neither begins nor ends with a space (R68, R106). -/
def Obligations.LinesUseTheGrammarsCharacters : Prop :=
  ∀ (p : Params) (i : Instr),
    (∀ c ∈ (lineOf p i).toList, c ∈ lineAlphabet) ∧
    (lineOf p i).toList.head? ≠ some ' ' ∧ (lineOf p i).toList.getLast? ≠ some ' '

/-- R116: the byte image ends each line with one line feed, and no line holds a line break character of its own. -/
def Obligations.OutputImageEndsEachLineWithLineFeed : Prop :=
  (∀ out : List String, (outputImage out).toList = out.flatMap (fun line => line.toList ++ ['\n'])) ∧
  (∀ (p : Params) (i : Instr), '\n' ∉ (lineOf p i).toList ∧ '\r' ∉ (lineOf p i).toList) ∧
  ∀ p : Params, p.headerOk = true → ∀ line ∈ headerLines p, '\n' ∉ line.toList ∧ '\r' ∉ line.toList

/-- The text of a diagnostic (R134): the words of its reason, the offset in decimal, the eight binary digits of the
byte, and the words of its detail. -/
def Obligations.DiagnosticTextNamesOffsetAndPattern : Prop :=
  ∀ (offset : Nat) (b : Byte) (sel : Sel) (need remain : Nat),
    diagText ⟨.unrecognizedOpcode, offset, b, .none⟩ = "unrecognized opcode at offset " ++ dec offset ++ ": " ++ bin8 b ∧
    diagText ⟨.decoderFailure, offset, b, .none⟩ = "decoder failure at offset " ++ dec offset ++ ": " ++ bin8 b ∧
    diagText ⟨.decoderFailure, offset, b, .selector sel⟩
      = "decoder failure at offset " ++ dec offset ++ ": " ++ bin8 b ++ " (selector " ++ bin3 sel ++ ")" ∧
    diagText ⟨.truncated, offset, b, .lengths need remain⟩
      = "truncated instruction at offset " ++ dec offset ++ ": " ++ bin8 b
        ++ " (needs " ++ dec need ++ " bytes, " ++ dec remain ++ " remain)" ∧
    (bin8 b).toList = (List.range 8).map (fun k => if b.getLsbD (7 - k) then '1' else '0') ∧
    (bin3 sel).toList = (List.range 3).map (fun k => if sel.getLsbD (2 - k) then '1' else '0')
end

