-- ==== Sys2Proof/Laws/Length.lean ====
section
/-! SUPPORT. Lengths: of operands, of immediates, of instructions, and of the bytes the encoder writes (R64). -/

namespace Sys2Proof

theorem ImmData.length_pos (imm : ImmData) : 1 ≤ imm.length := by cases imm <;> simp [ImmData.length]

theorem ImmData.length_le (imm : ImmData) : imm.length ≤ 2 := by cases imm <;> simp [ImmData.length]

theorem RmOperand.dispLen_le (rm : RmOperand) : rm.dispLen ≤ 2 := by cases rm <;> simp [RmOperand.dispLen]

@[simp] theorem ImmData.bytes_length (imm : ImmData) : imm.bytes.length = imm.length := by cases imm <;> rfl

@[simp] theorem RmOperand.dispBytes_length (rm : RmOperand) : rm.dispBytes.length = rm.dispLen := by
  cases rm <;> rfl

/-- The displacement bytes an operand has are those its fields ask for (R64), where it is well formed. -/
theorem RmOperand.dispLen_eq {rm : RmOperand} (h : rm.wf = true) : Sys2Proof.dispLen rm.mode rm.sel = rm.dispLen := by
  cases rm with
  | mem0 r =>
    have hr : r ≠ 0b110#3 := by simpa [RmOperand.wf] using h
    simp [Sys2Proof.dispLen, RmOperand.mode, RmOperand.sel, RmOperand.dispLen, hr]
  | reg _ => rfl
  | direct _ => rfl
  | mem8 _ _ => rfl
  | mem16 _ _ => rfl

/-- Every instruction has at least two bytes (R64), so the zero-consumption guard of R124 is never taken. -/
theorem two_le_length (i : Instr) : 2 ≤ i.length := by
  cases i <;> simp only [Instr.length] <;>
    first
      | omega
      | (rename_i imm; have := ImmData.length_pos imm; omega)

/-- No instruction is longer than six bytes (R64). -/
theorem length_le_max (i : Instr) : i.length ≤ maxInstrLength := by
  cases i with
  | movRM _ _ _ rm => have := rm.dispLen_le; simp only [Instr.length, maxInstrLength]; omega
  | addRM _ _ _ rm => have := rm.dispLen_le; simp only [Instr.length, maxInstrLength]; omega
  | subRM _ _ _ rm => have := rm.dispLen_le; simp only [Instr.length, maxInstrLength]; omega
  | cmpRM _ _ _ rm => have := rm.dispLen_le; simp only [Instr.length, maxInstrLength]; omega
  | movIR _ _ imm => have := imm.length_le; simp only [Instr.length, maxInstrLength]; omega
  | movIRM _ rm imm => have := rm.dispLen_le; have := imm.length_le; simp only [Instr.length, maxInstrLength]; omega
  | addIRM _ _ rm imm => have := rm.dispLen_le; have := imm.length_le; simp only [Instr.length, maxInstrLength]; omega
  | subIRM _ _ rm imm => have := rm.dispLen_le; have := imm.length_le; simp only [Instr.length, maxInstrLength]; omega
  | cmpIRM _ _ rm imm => have := rm.dispLen_le; have := imm.length_le; simp only [Instr.length, maxInstrLength]; omega
  | addIA _ imm => have := imm.length_le; simp only [Instr.length, maxInstrLength]; omega
  | subIA _ imm => have := imm.length_le; simp only [Instr.length, maxInstrLength]; omega
  | cmpIA _ imm => have := imm.length_le; simp only [Instr.length, maxInstrLength]; omega

/-- The encoder writes as many bytes as the decoder reports to consume (R64). -/
@[simp] theorem encode_length (i : Instr) : (encode i).length = i.length := by
  cases i <;> simp only [encode, Instr.length, List.length_cons, List.length_append, ImmData.bytes_length,
    RmOperand.dispBytes_length] <;> omega

end Sys2Proof
end

