-- ==== Sys2Proof/Laws/Bytes.lean ====
section
/-! SUPPORT. Fields of header bytes, byte order, and what the readers of Decode.lean answer: a reader succeeds exactly
when the bytes it needs exist, and it gives back exactly those bytes. -/

namespace Sys2Proof

@[simp] theorem Width.ofBit_bit (w : Width) : Width.ofBit w.bit = w := by cases w <;> rfl

@[simp] theorem Width.bit_ofBit (b : Bool) : (Width.ofBit b).bit = b := by cases b <;> rfl

@[simp] theorem Mode.ofField_field (m : Mode) : Mode.ofField m.field = m := by cases m <;> rfl

@[simp] theorem Mode.field_ofField (x : BitVec 2) : (Mode.ofField x).field = x := by revert x; decide

theorem extract_low_append {m n : Nat} (x : BitVec m) (y : BitVec n) : (x ++ y).extractLsb' 0 n = y := by
  ext i hi
  simp [BitVec.getLsbD_append, hi]

theorem extract_high_append {m n : Nat} (x : BitVec m) (y : BitVec n) : (x ++ y).extractLsb' n m = x := by
  ext i hi
  simp [BitVec.getLsbD_append, BitVec.getLsbD_eq_getElem hi]

theorem append_extract {m n : Nat} (v : BitVec (m + n)) : v.extractLsb' n m ++ v.extractLsb' 0 n = v := by
  ext i hi
  simp

@[simp] theorem lowByte_leWord (lo hi : Byte) : lowByte (leWord lo hi) = lo := extract_low_append hi lo

@[simp] theorem highByte_leWord (lo hi : Byte) : highByte (leWord lo hi) = hi := extract_high_append hi lo

@[simp] theorem leWord_low_high (v : Word) : leWord (lowByte v) (highByte v) = v := append_extract (m := 8) (n := 8) v

@[simp] theorem modField_modRegRm (f : Sel) (rm : RmOperand) : modField (modRegRm f rm) = rm.mode.field := by
  have h : ∀ (a : BitVec 2) (b c : Sel), modField (a ++ b ++ c) = a := by decide
  exact h _ _ _

@[simp] theorem regField_modRegRm (f : Sel) (rm : RmOperand) : regField (modRegRm f rm) = f := by
  have h : ∀ (a : BitVec 2) (b c : Sel), regField (a ++ b ++ c) = b := by decide
  exact h _ _ _

@[simp] theorem rmField_modRegRm (f : Sel) (rm : RmOperand) : rmField (modRegRm f rm) = rm.sel := by
  have h : ∀ (a : BitVec 2) (b c : Sel), rmField (a ++ b ++ c) = c := by decide
  exact h _ _ _

/-- A second byte is its three fields. -/
theorem modRegRm_fields {b1 : Byte} {f : Sel} {rm : RmOperand} (hm : rm.mode = Mode.ofField (modField b1))
    (hf : f = regField b1) (hr : rm.sel = rmField b1) : modRegRm f rm = b1 := by
  have h : ∀ b : Byte, (modField b ++ regField b ++ rmField b : Byte) = b := by decide
  rw [modRegRm, hm, hf, hr, Mode.field_ofField]
  exact h b1

/-- The Displacement Reader gives back an operand of the mode and selector asked for, and the bytes it took (R72). -/
theorem readRm_eq_some {mode : Mode} {rm : Sel} {bs t : List Byte} {op : RmOperand} :
    readRm mode rm bs = some (op, t) ↔ op.wf = true ∧ op.mode = mode ∧ op.sel = rm ∧ bs = op.dispBytes ++ t := by
  constructor
  · intro h
    cases mode with
    | regd =>
      obtain ⟨rfl, rfl⟩ := Prod.mk.inj (Option.some.inj h)
      exact ⟨rfl, rfl, rfl, rfl⟩
    | mem0 =>
      simp only [readRm] at h
      split at h
      · next hr =>
        split at h
        · obtain ⟨rfl, rfl⟩ := Prod.mk.inj (Option.some.inj h)
          exact ⟨rfl, rfl, hr.symm, by simp [RmOperand.dispBytes]⟩
        · cases h
      · next hr =>
        obtain ⟨rfl, rfl⟩ := Prod.mk.inj (Option.some.inj h)
        exact ⟨by simp [RmOperand.wf, hr], rfl, rfl, rfl⟩
    | mem8 =>
      simp only [readRm] at h
      split at h
      · obtain ⟨rfl, rfl⟩ := Prod.mk.inj (Option.some.inj h)
        exact ⟨rfl, rfl, rfl, rfl⟩
      · cases h
    | mem16 =>
      simp only [readRm] at h
      split at h
      · obtain ⟨rfl, rfl⟩ := Prod.mk.inj (Option.some.inj h)
        exact ⟨rfl, rfl, rfl, by simp [RmOperand.dispBytes]⟩
      · cases h
  · rintro ⟨hw, rfl, rfl, rfl⟩
    cases op with
    | mem0 r =>
      have hr : r ≠ 0b110#3 := by simpa [RmOperand.wf] using hw
      simp [readRm, RmOperand.mode, RmOperand.sel, RmOperand.dispBytes, hr]
    | reg r => rfl
    | direct a => simp [readRm, RmOperand.mode, RmOperand.sel, RmOperand.dispBytes]
    | mem8 r d => rfl
    | mem16 r d => simp [readRm, RmOperand.mode, RmOperand.sel, RmOperand.dispBytes]

/-- The Displacement Reader fails exactly when too few bytes remain (R75). -/
theorem readRm_eq_none {mode : Mode} {rm : Sel} {bs : List Byte} :
    readRm mode rm bs = none ↔ bs.length < dispLen mode rm := by
  cases mode with
  | regd => simp [readRm, dispLen]
  | mem0 =>
    simp only [readRm, dispLen]
    split
    · match bs with
      | [] => simp
      | [_] => simp
      | _ :: _ :: _ => simp
    · simp
  | mem8 => cases bs <;> simp [readRm, dispLen]
  | mem16 =>
    match bs with
    | [] => simp [readRm, dispLen]
    | [_] => simp [readRm, dispLen]
    | _ :: _ :: _ => simp [readRm, dispLen]

/-- The immediate reader gives back as many data bytes as it was asked for (R73, R74). -/
theorem readImm_eq_some {n : Nat} (hn : n = 1 ∨ n = 2) {bs t : List Byte} {imm : ImmData} :
    readImm n bs = some (imm, t) ↔ imm.length = n ∧ bs = imm.bytes ++ t := by
  constructor
  · intro h
    rcases hn with rfl | rfl
    · cases bs with
      | nil => cases h
      | cons b u =>
        obtain ⟨rfl, rfl⟩ := Prod.mk.inj (Option.some.inj h)
        exact ⟨rfl, rfl⟩
    · match bs with
      | [] => cases h
      | [_] => cases h
      | lo :: hi :: u =>
        obtain ⟨rfl, rfl⟩ := Prod.mk.inj (Option.some.inj h)
        exact ⟨rfl, by simp [ImmData.bytes]⟩
  · rintro ⟨rfl, rfl⟩
    cases imm <;> simp [readImm, ImmData.bytes, ImmData.length]

/-- The immediate reader fails exactly when too few bytes remain (R75). -/
theorem readImm_eq_none {n : Nat} (hn : n = 1 ∨ n = 2) {bs : List Byte} :
    readImm n bs = none ↔ bs.length < n := by
  rcases hn with rfl | rfl
  · cases bs <;> simp [readImm]
  · match bs with
    | [] => simp [readImm]
    | [_] => simp [readImm]
    | _ :: _ :: _ => simp [readImm]

theorem immLenW_cases (w : Width) : immLenW w = 1 ∨ immLenW w = 2 := by cases w <;> simp [immLenW]

theorem immLenIRM_cases (p : Params) (s : Bool) (w : Width) : immLenIRM p s w = 1 ∨ immLenIRM p s w = 2 := by
  simp only [immLenIRM]
  split <;> simp

/-- The immediates that fit a width are those of its data length (R73). -/
theorem ImmData.fitsWidth_iff {w : Width} {imm : ImmData} : imm.fitsWidth w = true ↔ imm.length = immLenW w := by
  cases imm <;> cases w <;> simp [ImmData.fitsWidth, ImmData.length, immLenW]

/-- The immediates that fit the IRM format are those of its data length (R74). -/
theorem ImmData.fitsIRM_iff {p : Params} {s : Bool} {w : Width} {imm : ImmData} :
    imm.fitsIRM p s w = true ↔ imm.length = immLenIRM p s w := by
  simp only [immLenIRM]
  cases imm with
  | one b => cases hc : (p.immRmWideData && decide (w = .word) && !s) <;> simp [ImmData.fitsIRM, ImmData.length, hc]
  | two v => cases hc : (p.immRmWideData && decide (w = .word) && !s) <;> simp [ImmData.fitsIRM, ImmData.length, hc]

end Sys2Proof
end

