-- ==== Sys2Proof/Laws/State.lean ====
section
/-! SUPPORT. One lemma per field for each named update of the state, so that no proof unfolds a record update. -/

namespace Sys2Proof.Machine

@[simp] theorem State.emit_cursor (s : State) (line : String) : (s.emit line).cursor = s.cursor := rfl
@[simp] theorem State.emit_run (s : State) (line : String) : (s.emit line).run = s.run := rfl
@[simp] theorem State.emit_out (s : State) (line : String) : (s.emit line).out = s.out ++ [line] := rfl
@[simp] theorem State.emit_diag (s : State) (line : String) : (s.emit line).diag = s.diag := rfl
@[simp] theorem State.emit_input (s : State) (line : String) : (s.emit line).input = s.input := rfl
@[simp] theorem State.emit_inputLength (s : State) (line : String) : (s.emit line).inputLength = s.inputLength := rfl
@[simp] theorem State.emit_params (s : State) (line : String) : (s.emit line).params = s.params := rfl

@[simp] theorem State.advance_cursor (s : State) (k : Nat) : (s.advance k).cursor = s.cursor + k := rfl
@[simp] theorem State.advance_run (s : State) (k : Nat) : (s.advance k).run = s.run := rfl
@[simp] theorem State.advance_out (s : State) (k : Nat) : (s.advance k).out = s.out := rfl
@[simp] theorem State.advance_diag (s : State) (k : Nat) : (s.advance k).diag = s.diag := rfl
@[simp] theorem State.advance_input (s : State) (k : Nat) : (s.advance k).input = s.input := rfl
@[simp] theorem State.advance_inputLength (s : State) (k : Nat) : (s.advance k).inputLength = s.inputLength := rfl
@[simp] theorem State.advance_params (s : State) (k : Nat) : (s.advance k).params = s.params := rfl

@[simp] theorem State.stop_cursor (s : State) (r : StopReason) (d : StopDetail) :
    (s.stop r d).cursor = s.cursor := rfl
@[simp] theorem State.stop_run (s : State) (r : StopReason) (d : StopDetail) : (s.stop r d).run = .stopped := rfl
@[simp] theorem State.stop_out (s : State) (r : StopReason) (d : StopDetail) : (s.stop r d).out = s.out := rfl
@[simp] theorem State.stop_diag (s : State) (r : StopReason) (d : StopDetail) :
    (s.stop r d).diag = some { reason := r, offset := s.cursor, byte := s.input.read s.cursor, detail := d } := rfl
@[simp] theorem State.stop_input (s : State) (r : StopReason) (d : StopDetail) : (s.stop r d).input = s.input := rfl
@[simp] theorem State.stop_inputLength (s : State) (r : StopReason) (d : StopDetail) :
    (s.stop r d).inputLength = s.inputLength := rfl
@[simp] theorem State.stop_params (s : State) (r : StopReason) (d : StopDetail) :
    (s.stop r d).params = s.params := rfl

@[simp] theorem State.stopWith_cursor (s : State) (r : Reject) : (s.stopWith r).cursor = s.cursor := rfl
@[simp] theorem State.stopWith_run (s : State) (r : Reject) : (s.stopWith r).run = .stopped := rfl
@[simp] theorem State.stopWith_out (s : State) (r : Reject) : (s.stopWith r).out = s.out := rfl
@[simp] theorem State.stopWith_diag (s : State) (r : Reject) :
    (s.stopWith r).diag =
      some { reason := rejectReason r, offset := s.cursor, byte := s.input.read s.cursor, detail := rejectDetail r } := rfl
@[simp] theorem State.stopWith_input (s : State) (r : Reject) : (s.stopWith r).input = s.input := rfl
@[simp] theorem State.stopWith_inputLength (s : State) (r : Reject) :
    (s.stopWith r).inputLength = s.inputLength := rfl
@[simp] theorem State.stopWith_params (s : State) (r : Reject) : (s.stopWith r).params = s.params := rfl

@[simp] theorem State.startPass_cursor (s : State) (bs : List Byte) : (s.startPass bs).cursor = 0 := rfl
@[simp] theorem State.startPass_run (s : State) (bs : List Byte) : (s.startPass bs).run = .running := rfl
@[simp] theorem State.startPass_out (s : State) (bs : List Byte) : (s.startPass bs).out = headerLines s.params := rfl
@[simp] theorem State.startPass_diag (s : State) (bs : List Byte) : (s.startPass bs).diag = none := rfl
@[simp] theorem State.startPass_input (s : State) (bs : List Byte) :
    (s.startPass bs).input = Memory.writeBytes [] 0 bs := rfl
@[simp] theorem State.startPass_inputLength (s : State) (bs : List Byte) :
    (s.startPass bs).inputLength = bs.length := rfl
@[simp] theorem State.startPass_params (s : State) (bs : List Byte) : (s.startPass bs).params = s.params := rfl

@[simp] theorem State.placeAtCursor_cursor (s : State) (bs : List Byte) :
    (s.placeAtCursor bs).cursor = s.cursor := rfl
@[simp] theorem State.placeAtCursor_run (s : State) (bs : List Byte) : (s.placeAtCursor bs).run = .running := rfl
@[simp] theorem State.placeAtCursor_out (s : State) (bs : List Byte) : (s.placeAtCursor bs).out = s.out := rfl
@[simp] theorem State.placeAtCursor_diag (s : State) (bs : List Byte) : (s.placeAtCursor bs).diag = s.diag := rfl
@[simp] theorem State.placeAtCursor_input (s : State) (bs : List Byte) :
    (s.placeAtCursor bs).input = s.input.writeBytes s.cursor bs := rfl
@[simp] theorem State.placeAtCursor_inputLength (s : State) (bs : List Byte) :
    (s.placeAtCursor bs).inputLength = max s.inputLength (s.cursor + bs.length) := rfl
@[simp] theorem State.placeAtCursor_params (s : State) (bs : List Byte) :
    (s.placeAtCursor bs).params = s.params := rfl

end Sys2Proof.Machine
end

