-- ==== Sys2Proof/Laws/Exec.lean ====
section
/-! SUPPORT. What the shared operations and one step can do, said once: later proofs cite these lemmas and unfold
neither `finish`, `exec` nor `step`. -/

namespace Sys2Proof.Machine

/-- `finish` with a nonzero consumption emits one line and advances (R121, R122). -/
theorem State.finish_eq (s : State) (r : Record) {k : Nat} (h : k ≠ 0) :
    s.finish r k =
      .next { s with out := s.out ++ [renderLine s.params.directAddrQualifier r], cursor := s.cursor + k } := by
  simp only [State.finish, if_neg h]; rfl

/-- What `exec` answers, for every instruction and state: the line of its record, and the advance by its length. -/
theorem exec_eq (i : Instr) (s : State) :
    exec i s = .next { s with out := s.out ++ [lineOf s.params i], cursor := s.cursor + i.length } := by
  have h : i.length ≠ 0 := by have := two_le_length i; omega
  cases i <;> exact State.finish_eq s _ h

/-- What the loop selects at a state where no step is enabled. -/
theorem State.select_of_not_enabled {s : State} (h : ¬ s.enabled) : ∃ f, s.select = .disabled f := by
  unfold State.select
  split
  · exact ⟨_, rfl⟩
  · next hr =>
    rw [if_neg (fun hc => h ⟨hr, hc⟩)]
    split <;> exact ⟨_, rfl⟩

/-- A step where none is enabled is a fault. -/
theorem step_of_not_enabled {s : State} (h : ¬ s.enabled) : ∃ f, step s = .fault f := by
  obtain ⟨f, hf⟩ := State.select_of_not_enabled h
  exact ⟨f, by simp only [step, hf]⟩

/-- A step on a decoded instruction. -/
theorem step_of_ok {s : State} (h : s.enabled) {i : Instr} {rest : List Byte}
    (hd : decode s.params s.fetch = .ok i rest) :
    step s = .next { s with out := s.out ++ [lineOf s.params i], cursor := s.cursor + i.length } := by
  simp only [step, State.select, h.1, if_pos h.2, hd, exec_eq]

/-- A step on a rejection is the stop transition. -/
theorem step_of_reject {s : State} (h : s.enabled) {r : Reject} (hd : decode s.params s.fetch = .reject r) :
    step s = .next (s.stopWith r) := by
  simp only [step, State.select, h.1, if_pos h.2, hd]

/-- Everything a step can do, when it answers a next state. -/
theorem step_next_cases {s t : State} (h : step s = .next t) :
    s.enabled ∧
      ((∃ i rest, decode s.params s.fetch = .ok i rest ∧
          t = { s with out := s.out ++ [lineOf s.params i], cursor := s.cursor + i.length }) ∨
        ∃ r, decode s.params s.fetch = .reject r ∧ t = s.stopWith r) := by
  by_cases he : s.enabled
  · refine ⟨he, ?_⟩
    cases hd : decode s.params s.fetch with
    | ok i rest =>
      rw [step_of_ok he hd] at h
      exact .inl ⟨i, rest, rfl, (Host.Outcome.next.inj h).symm⟩
    | reject r =>
      rw [step_of_reject he hd] at h
      exact .inr ⟨r, rfl, (Host.Outcome.next.inj h).symm⟩
  · obtain ⟨f, hf⟩ := step_of_not_enabled he
    rw [hf] at h
    cases h

/-- The bytes the loop hands the decoder are the first six unread ones, or all of them where fewer remain. -/
theorem State.fetch_eq_take_unread (s : State) : s.fetch = s.unread.take maxInstrLength := by
  have h : ∀ n, (List.range n).filterMap (fun k => s.readInput (s.cursor + k)) = s.unread.take n := by
    intro n
    induction n with
    | zero => simp
    | succ n ih =>
      rw [List.range_succ, List.filterMap_append, ih, List.take_add_one]
      congr 1
      by_cases hn : s.cursor + n < s.inputLength
      · have hlt : n < s.inputLength - s.cursor := by omega
        simp [State.readInput, hn, State.unread, List.getElem?_range hlt]
      · have hge : s.inputLength - s.cursor ≤ n := by omega
        simp [State.readInput, hn, State.unread, hge]
  exact h maxInstrLength

@[simp] theorem State.unread_length (s : State) : s.unread.length = s.inputLength - s.cursor := by
  simp [State.unread]

@[simp] theorem State.consumed_length (s : State) : s.consumed.length = s.cursor := by simp [State.consumed]

end Sys2Proof.Machine
end

