-- ==== Sys2Proof/Laws/Memory.lean ====
section
/-! SUPPORT. The laws of the input buffer: a byte reads as it was stored, other bytes stay, and every operation
keeps the canonical form. -/

namespace Sys2Proof.Machine

@[simp] theorem Memory.read_nil (i : Nat) : Memory.read [] i = Memory.blank := rfl

/-- An index below every listed one reads as the unlisted byte. -/
theorem Memory.read_of_lt {m : Memory} {i : Nat} (h : ∀ c ∈ m, i < c.1) : m.read i = Memory.blank := by
  induction m with
  | nil => rfl
  | cons c t ih =>
    have hc := h c (by simp)
    simp only [Memory.read, if_neg (by omega : ¬ c.1 = i)]
    exact ih (fun d hd => h d (by simp [hd]))

theorem Memory.read_cons {m : Memory} {i j : Nat} {b : Byte} (h : ∀ c ∈ m, i < c.1) :
    (Memory.cons i b m).read j = if i = j then b else m.read j := by
  unfold Memory.cons
  split
  · next hb =>
    split
    · next hij => rw [← hij, Memory.read_of_lt h, hb]
    · rfl
  · rfl

theorem Memory.cons_wf {m : Memory} {i : Nat} {b : Byte} (hm : m.wf) (h : ∀ c ∈ m, i < c.1) :
    (Memory.cons i b m).wf := by
  unfold Memory.cons
  split
  · exact hm
  · next hb => exact ⟨List.pairwise_cons.2 ⟨h, hm.1⟩, by simpa using ⟨hb, fun a b => hm.2 (a, b)⟩⟩

/-- A canonical memory without its first cell is canonical, and its other indices are higher. -/
theorem Memory.wf_tail {c : Host.Cell} {t : Memory} (h : Memory.wf (c :: t)) :
    Memory.wf t ∧ ∀ d ∈ t, c.1 < d.1 :=
  ⟨⟨(List.pairwise_cons.1 h.1).2, fun d hd => h.2 d (by simp [hd])⟩, (List.pairwise_cons.1 h.1).1⟩

/-- The indices a store leaves listed are the old ones and the stored one. -/
theorem Memory.mem_write {m : Memory} {i : Nat} {b : Byte} {c : Host.Cell} (h : c ∈ m.write i b) :
    c ∈ m ∨ c = (i, b) := by
  have hc : ∀ {t : Memory}, c ∈ Memory.cons i b t → c ∈ t ∨ c = (i, b) := by
    intro t ht
    unfold Memory.cons at ht
    split at ht
    · exact .inl ht
    · simpa [or_comm] using ht
  induction m with
  | nil => simpa using hc h
  | cons d t ih =>
    simp only [Memory.write] at h
    split at h
    · exact hc h
    · split at h
      · exact (hc h).imp_left (by simp +contextual)
      · rcases List.mem_cons.1 h with h | h
        · exact .inl (by simp [h])
        · exact (ih h).imp_left (by simp +contextual)

/-- A store keeps the canonical form. -/
theorem Memory.write_wf {m : Memory} (hm : m.wf) (i : Nat) (b : Byte) : (m.write i b).wf := by
  induction m with
  | nil => exact Memory.cons_wf hm (by simp)
  | cons c t ih =>
    obtain ⟨ht, hlt⟩ := Memory.wf_tail hm
    simp only [Memory.write]
    split
    · next hi =>
      refine Memory.cons_wf hm (fun d hd => ?_)
      rcases List.mem_cons.1 hd with rfl | hd
      · exact hi
      · exact Nat.lt_trans hi (hlt d hd)
    · split
      · next hci => exact Memory.cons_wf ht (fun d hd => hci ▸ hlt d hd)
      · next hi hne =>
        refine ⟨List.pairwise_cons.2 ⟨fun d hd => ?_, (ih ht).1⟩, fun d hd => ?_⟩
        · rcases Memory.mem_write hd with hd | rfl
          · exact hlt d hd
          · exact show c.1 < i by omega
        · rcases List.mem_cons.1 hd with rfl | hd
          · exact hm.2 _ (by simp)
          · exact (ih ht).2 d hd

/-- A byte reads as it was stored, and every other byte stays. -/
theorem Memory.read_write {m : Memory} (hm : m.wf) (i j : Nat) (b : Byte) :
    (m.write i b).read j = if i = j then b else m.read j := by
  induction m with
  | nil => exact Memory.read_cons (by simp)
  | cons c t ih =>
    obtain ⟨ht, hlt⟩ := Memory.wf_tail hm
    simp only [Memory.write]
    split
    · next hi =>
      refine Memory.read_cons (fun d hd => ?_)
      rcases List.mem_cons.1 hd with rfl | hd
      · exact hi
      · exact Nat.lt_trans hi (hlt d hd)
    · split
      · next hci =>
        rw [Memory.read_cons (fun d hd => hci ▸ hlt d hd)]
        by_cases hij : i = j
        · simp [hij]
        · simp [hij, Memory.read, hci]
      · next hi hne =>
        simp only [Memory.read, ih ht]
        split
        · next hcj => rw [if_neg (by omega)]
        · rfl

theorem Memory.writeBytes_wf {m : Memory} (hm : m.wf) (i : Nat) (bs : List Byte) : (m.writeBytes i bs).wf := by
  induction bs generalizing m i with
  | nil => exact hm
  | cons b bs ih => exact ih (Memory.write_wf hm i b) (i + 1)

/-- What the bytes read as after a run of bytes was stored. -/
theorem Memory.read_writeBytes {m : Memory} (hm : m.wf) (i j : Nat) (bs : List Byte) :
    (m.writeBytes i bs).read j = if i ≤ j then (bs[j - i]?).getD (m.read j) else m.read j := by
  induction bs generalizing m i with
  | nil => simp [Memory.writeBytes]
  | cons b bs ih =>
    simp only [Memory.writeBytes]
    rw [ih (Memory.write_wf hm i b), Memory.read_write hm]
    rcases Nat.lt_trichotomy i j with h | rfl | h
    · obtain ⟨k, rfl⟩ : ∃ k, j = i + 1 + k := ⟨j - (i + 1), by omega⟩
      have e1 : i + 1 + k - (i + 1) = k := by omega
      have e2 : i + 1 + k - i = k + 1 := by omega
      rw [if_pos (by omega), if_neg (by omega), if_pos (by omega), e1, e2, List.getElem?_cons_succ]
    · simp
    · rw [if_neg (by omega), if_neg (by omega), if_neg (by omega)]

/-- The indices a run of stores leaves listed. -/
theorem Memory.mem_writeBytes {m : Memory} {i : Nat} {bs : List Byte} {c : Host.Cell}
    (h : c ∈ m.writeBytes i bs) : c ∈ m ∨ (i ≤ c.1 ∧ c.1 < i + bs.length) := by
  induction bs generalizing m i with
  | nil => exact .inl h
  | cons b bs ih =>
    rcases ih h with h | h
    · rcases Memory.mem_write h with h | rfl
      · exact .inl h
      · exact .inr (by simp)
    · exact .inr (by simp only [List.length_cons]; omega)

/-- The memory of the reset state is canonical. -/
theorem State.reset_input_wf : State.reset.input.wf := by simp [State.reset, Memory.wf]

/-- Starting a pass loads a canonical memory. -/
theorem State.startPass_input_wf (s : State) (bs : List Byte) : (s.startPass bs).input.wf :=
  Memory.writeBytes_wf (m := []) (by simp [Memory.wf]) 0 bs

/-- Placing bytes at the cursor keeps the canonical form. -/
theorem State.placeAtCursor_input_wf (s : State) (bs : List Byte) (h : s.input.wf) :
    (s.placeAtCursor bs).input.wf :=
  Memory.writeBytes_wf h s.cursor bs

end Sys2Proof.Machine
end

