-- ==== Sys2Proof/Laws/PerInstr.lean ====
section
/-! SUPPORT. Facts about every instruction as syntax, one lemma per constructor. -/

namespace Sys2Proof.Laws.EncodedLength

/-- The encoding of an instruction has as many bytes as its length, between two and six (R64). -/
def Statement (i : Instr) : Prop := (encode i).length = i.length ∧ 2 ≤ i.length ∧ i.length ≤ maxInstrLength

theorem of_instr (i : Instr) : Statement i := ⟨encode_length i, two_le_length i, length_le_max i⟩

theorem movRM (d : Bool) (w : Width) (reg : Sel) (rm : RmOperand) : Statement (.movRM d w reg rm) := of_instr _
theorem addRM (d : Bool) (w : Width) (reg : Sel) (rm : RmOperand) : Statement (.addRM d w reg rm) := of_instr _
theorem subRM (d : Bool) (w : Width) (reg : Sel) (rm : RmOperand) : Statement (.subRM d w reg rm) := of_instr _
theorem cmpRM (d : Bool) (w : Width) (reg : Sel) (rm : RmOperand) : Statement (.cmpRM d w reg rm) := of_instr _
theorem movIR (w : Width) (reg : Sel) (imm : ImmData) : Statement (.movIR w reg imm) := of_instr _
theorem movIRM (w : Width) (rm : RmOperand) (imm : ImmData) : Statement (.movIRM w rm imm) := of_instr _
theorem addIRM (s : Bool) (w : Width) (rm : RmOperand) (imm : ImmData) : Statement (.addIRM s w rm imm) := of_instr _
theorem subIRM (s : Bool) (w : Width) (rm : RmOperand) (imm : ImmData) : Statement (.subIRM s w rm imm) := of_instr _
theorem cmpIRM (s : Bool) (w : Width) (rm : RmOperand) (imm : ImmData) : Statement (.cmpIRM s w rm imm) := of_instr _
theorem addIA (w : Width) (imm : ImmData) : Statement (.addIA w imm) := of_instr _
theorem subIA (w : Width) (imm : ImmData) : Statement (.subIA w imm) := of_instr _
theorem cmpIA (w : Width) (imm : ImmData) : Statement (.cmpIA w imm) := of_instr _

end Sys2Proof.Laws.EncodedLength
end

