-- ==== Sys2Proof/Tests/Slice0.lean ====
section
/-! SUPPORT. Tests on fixed bytes, and a witness for the hypotheses of each statement. Expected results are the spec's:
the scenarios of 95_test_vectors.md section 1, the vectors of R87, R90, R98 and R104 and of section 2, the tables of
R58 to R62, and words written out from R54 to R57. -/

namespace Sys2Proof.Tests

open Sys2Proof.Machine Sys2Proof.Rules

/-! ### Builds and passes -/

/-- A build with two data bytes for `w = 1`, `s = 0` in the immediate → r/m family (R12). -/
def wideBuild : Params := { Config.params with immRmWideData := true }

/-- A build whose direct addresses are qualified by width (R12). -/
def byWidthBuild : Params := { Config.params with directAddrQualifier := .byWidth }

/-- A build with a written-out header comment and a 32-bit cursor. -/
def plainBuild : Params := { Config.params with headerComment := "; disassembly", cursorBits := 32 }

/-- The start of a pass of a build over `bytes`. -/
def load (p : Params) (bytes : List Byte) : State := { State.reset with params := p }.startPass bytes

/-- What one step from the start of a pass shows: `run`, the cursor, the first line, and `diag`. -/
def stepOf (p : Params) (bytes : List Byte) : Option (Run × Nat × Option String × Option StopInfo) :=
  match step (load p bytes) with
  | .next t => some (t.run, t.cursor, t.out[2]?, t.diag)
  | .fault _ => none
  | .refused _ => none

/-- One line and an advance. -/
def shows (line : String) (k : Nat) : Option (Run × Nat × Option String × Option StopInfo) :=
  some (.running, k, some line, none)

/-- A stop at the start of the input. -/
def stops (reason : StopReason) (byte : Byte) (detail : StopDetail) :
    Option (Run × Nat × Option String × Option StopInfo) :=
  some (.stopped, 0, none, some ⟨reason, 0, byte, detail⟩)

/-! ### Well-formedness refuses ill-formed terms -/

/-- `mod = 00` with `rm = 110` is a direct address (R59). -/
theorem test_wf_refuses_mem0_110 : (Instr.movRM true .word 0b000#3 (.mem0 0b110#3)).wf Config.params = false := by decide

/-- A byte register takes one data byte (R55, R73). -/
theorem test_wf_refuses_two_bytes_at_byte_width :
    (Instr.movIR .byte 0b000#3 (.two 0x0005#16)).wf Config.params = false := by decide

/-- The word accumulator takes two data bytes (R57, R73). -/
theorem test_wf_refuses_one_byte_at_word_width : (Instr.addIA .word (.one 0x05#8)).wf Config.params = false := by decide

/-- By default the immediate → r/m family reads one data byte (R74). -/
theorem test_wf_refuses_wide_data_by_default :
    (Instr.movIRM .word (.reg 0b000#3) (.two 0x0005#16)).wf Config.params = false := by decide

/-- In the wide build it reads two at `w = 1`, `s = 0`, and one at `s = 1` (R74). -/
theorem test_wf_of_the_wide_build :
    (Instr.addIRM false .word (.reg 0b000#3) (.one 0x05#8)).wf wideBuild = false ∧
    (Instr.addIRM true .word (.reg 0b000#3) (.one 0x05#8)).wf wideBuild = true := by decide

/-- An ill-formed r/m operand is refused in the immediate → r/m family too (R59). -/
theorem test_wf_refuses_mem0_110_with_immediate :
    (Instr.cmpIRM false .byte (.mem0 0b110#3) (.one 0x05#8)).wf Config.params = false := by decide

/-! ### Decoding: a word written out from the spec's encoding for every constructor -/

theorem test_decode_movRM : decode Config.params [0b10001000#8, 0b01101110#8, 0x00#8]
    = .ok (.movRM false .byte 0b101#3 (.mem8 0b110#3 0x00#8)) [] := by decide

theorem test_decode_addRM : decode Config.params [0b00000011#8, 0b00000101#8]
    = .ok (.addRM true .word 0b000#3 (.mem0 0b101#3)) [] := by decide

theorem test_decode_subRM : decode Config.params [0b00101001#8, 0b01011110#8, 0xFE#8]
    = .ok (.subRM false .word 0b011#3 (.mem8 0b110#3 0xFE#8)) [] := by decide

theorem test_decode_cmpRM : decode Config.params [0b00111011#8, 0b00000110#8, 0x10#8, 0x00#8]
    = .ok (.cmpRM true .word 0b000#3 (.direct 0x0010#16)) [] := by decide

theorem test_decode_movIR : decode Config.params [0b10110101#8, 0xF4#8, 0xAA#8]
    = .ok (.movIR .byte 0b101#3 (.one 0xF4#8)) [0xAA#8] := by decide

theorem test_decode_movIRM : decode Config.params [0b11000111#8, 0b10000101#8, 0x85#8, 0x03#8, 0x5B#8]
    = .ok (.movIRM .word (.mem16 0b101#3 0x0385#16) (.one 0x5B#8)) [] := by decide

theorem test_decode_addIRM : decode Config.params [0b10000010#8, 0b11000000#8, 0xFF#8]
    = .ok (.addIRM true .byte (.reg 0b000#3) (.one 0xFF#8)) [] := by decide

theorem test_decode_subIRM : decode Config.params [0b10000011#8, 0b01101111#8, 0x04#8, 0xFE#8]
    = .ok (.subIRM true .word (.mem8 0b111#3 0x04#8) (.one 0xFE#8)) [] := by decide

theorem test_decode_cmpIRM : decode Config.params [0b10000000#8, 0b00111110#8, 0xE2#8, 0x12#8, 0x14#8]
    = .ok (.cmpIRM false .byte (.direct 0x12E2#16) (.one 0x14#8)) [] := by decide

theorem test_decode_addIA : decode Config.params [0b00000101#8, 0xE8#8, 0x03#8]
    = .ok (.addIA .word (.two 0x03E8#16)) [] := by decide

theorem test_decode_subIA : decode Config.params [0b00101100#8, 0xE2#8] = .ok (.subIA .byte (.one 0xE2#8)) [] := by decide

theorem test_decode_cmpIA : decode Config.params [0b00111100#8, 0x09#8] = .ok (.cmpIA .byte (.one 0x09#8)) [] := by decide

/-- Two data bytes in the wide build (R98, "wide"). -/
theorem test_decode_wide : decode wideBuild [0b11000111#8, 0b10000101#8, 0x85#8, 0x03#8, 0x5B#8, 0x01#8]
    = .ok (.movIRM .word (.mem16 0b101#3 0x0385#16) (.two 0x015B#16)) [] := by decide

/-- The 44 recognized leading bytes (R60). -/
theorem test_dispatch_recognizes_44 :
    ((List.range 256).filter (fun n => dispatch (BitVec.ofNat 8 n) ≠ .unrecognized)).length = 44 := by decide

/-- The opcode table's words, with its own numbering: the leading byte is bits 15..8 of a two-byte header. -/
theorem test_table_words :
    decodeTableWord 16 0x8800 = some (.movRM false .byte 0b000#3 (.mem0 0b000#3)) ∧
    decodeTableWord 16 0x8038 = some (.cmpIRM false .byte (.mem0 0b000#3) (.one 0x00#8)) ∧
    decodeTableWord 16 0xC600 = some (.movIRM .byte (.mem0 0b000#3) (.one 0x00#8)) ∧
    decodeTableWord 8 0xB0 = some (.movIR .byte 0b000#3 (.one 0x00#8)) ∧
    decodeTableWord 8 0x3C = some (.cmpIA .byte (.one 0x00#8)) ∧
    decodeTableWord 16 0x8008 = none ∧ decodeTableWord 8 0xF4 = none := by decide

/-- A table word placed after reset is what the next step runs. -/
theorem test_fetch_word :
    step (State.reset.withFetchWord 16 0x2800)
      = exec (.subRM false .byte 0b000#3 (.mem0 0b000#3)) (State.reset.withFetchWord 16 0x2800) ∧
    step (State.reset.withFetchWord 8 0x05)
      = exec (.addIA .word (.two 0x0000#16)) (State.reset.withFetchWord 8 0x05) := ⟨rfl, rfl⟩

/-! ### One step of each instruction -/

/-- §8 scenarios 1 and 5. -/
theorem test_step_movRM : stepOf Config.params [0x89#8, 0xD8#8] = shows "mov ax, bx" 2 ∧
    stepOf Config.params [0x89#8, 0x08#8] = shows "mov word [bx + si], cx" 2 := by decide

/-- R87: a negative displacement of each length. -/
theorem test_step_movRM_displacement :
    stepOf Config.params [0x8B#8, 0x41#8, 0xDB#8] = shows "mov ax, word [bx + di + -37]" 3 ∧
    stepOf Config.params [0x89#8, 0x8C#8, 0xD4#8, 0xFE#8] = shows "mov word [si + -300], cx" 4 := by decide

/-- Section 2.1. -/
theorem test_step_addRM : stepOf Config.params [0x02#8, 0x47#8, 0x7F#8] = shows "add al, byte [bx + 127]" 3 ∧
    stepOf Config.params [0x00#8, 0xC4#8] = shows "add ah, al" 2 := by decide

/-- §8 scenario 4; section 2.1. -/
theorem test_step_subRM : stepOf Config.params [0x2B#8, 0xD8#8] = shows "sub bx, ax" 2 ∧
    stepOf Config.params [0x29#8, 0x5E#8, 0xFE#8] = shows "sub word [bp + -2], bx" 3 := by decide

/-- Section 2.1. -/
theorem test_step_cmpRM : stepOf Config.params [0x39#8, 0xF7#8] = shows "cmp di, si" 2 ∧
    stepOf Config.params [0x3B#8, 0x06#8, 0x10#8, 0x00#8] = shows "cmp ax, word [16]" 4 := by decide

/-- Section 2.2: a byte is never sign-extended, and a word prints signed. -/
theorem test_step_movIR : stepOf Config.params [0xB5#8, 0xF4#8] = shows "mov ch, 244" 2 ∧
    stepOf Config.params [0xBC#8, 0x00#8, 0x80#8] = shows "mov sp, -32768" 3 := by decide

/-- R98. -/
theorem test_step_movIRM : stepOf Config.params [0xC7#8, 0xC0#8, 0x80#8] = shows "mov ax, 128" 3 ∧
    stepOf wideBuild [0xC7#8, 0x85#8, 0x85#8, 0x03#8, 0x5B#8, 0x01#8] = shows "mov word [di + 901], 347" 6 := by decide

/-- B4: sign extension only under `s = 1` and `w = 1`. -/
theorem test_step_addIRM : stepOf Config.params [0x83#8, 0xC0#8, 0x80#8] = shows "add ax, -128" 3 ∧
    stepOf Config.params [0x82#8, 0xC0#8, 0xFF#8] = shows "add al, 255" 3 := by decide

/-- Section 2.3, `s = 0`, `w = 1`, in both builds. -/
theorem test_step_addIRM_wide : stepOf Config.params [0x81#8, 0xC0#8, 0xFF#8] = shows "add ax, 255" 3 ∧
    stepOf wideBuild [0x81#8, 0xC0#8, 0xFF#8, 0xFF#8] = shows "add ax, -1" 4 := by decide

/-- Section 2.3. -/
theorem test_step_subIRM : stepOf Config.params [0x83#8, 0x6F#8, 0x04#8, 0xFE#8] = shows "sub word [bx + 4], -2" 4 ∧
    stepOf Config.params [0x80#8, 0xEF#8, 0x0A#8] = shows "sub bh, 10" 3 := by decide

/-- Section 2.3, with both qualifiers of a direct address. -/
theorem test_step_cmpIRM :
    stepOf Config.params [0x80#8, 0x3E#8, 0xE2#8, 0x12#8, 0x14#8] = shows "cmp word [4834], 20" 5 ∧
    stepOf byWidthBuild [0x80#8, 0x3E#8, 0xE2#8, 0x12#8, 0x14#8] = shows "cmp byte [4834], 20" 5 := by decide

/-- §8 scenario 3; section 2.4. -/
theorem test_step_addIA : stepOf Config.params [0x04#8, 0x09#8] = shows "add al, 9" 2 ∧
    stepOf Config.params [0x05#8, 0xE8#8, 0x03#8] = shows "add ax, 1000" 3 := by decide

/-- Section 2.4. -/
theorem test_step_subIA : stepOf Config.params [0x2C#8, 0xE2#8] = shows "sub al, 226" 2 ∧
    stepOf Config.params [0x2D#8, 0x00#8, 0x80#8] = shows "sub ax, -32768" 3 := by decide

/-- Section 2.4. -/
theorem test_step_cmpIA : stepOf Config.params [0x3C#8, 0x09#8] = shows "cmp al, 9" 2 ∧
    stepOf Config.params [0x3D#8, 0xFF#8, 0xFF#8] = shows "cmp ax, -1" 3 := by decide

/-! ### Stops and the ends of a pass -/

/-- Section 2.5. -/
theorem test_stops_unrecognized : stepOf Config.params [0xF4#8] = stops .unrecognizedOpcode 0xF4#8 .none ∧
    stepOf Config.params [0x8C#8, 0xD8#8] = stops .unrecognizedOpcode 0x8C#8 .none := by decide

/-- Section 2.5: the selector is checked before the full length. -/
theorem test_stops_selector : stepOf Config.params [0x80#8, 0xC8#8] = stops .decoderFailure 0x80#8 (.selector 0b001#3) ∧
    stepOf Config.params [0xC6#8, 0x08#8, 0x05#8] = stops .decoderFailure 0xC6#8 (.selector 0b001#3) := by decide

/-- Section 2.5. -/
theorem test_stops_truncated : stepOf Config.params [0xB8#8, 0x05#8] = stops .truncated 0xB8#8 (.lengths 3 2) ∧
    stepOf Config.params [0x89#8] = stops .truncated 0x89#8 (.lengths 2 1) ∧
    stepOf Config.params [0x8B#8, 0x06#8, 0x05#8] = stops .truncated 0x8B#8 (.lengths 4 3) ∧
    stepOf Config.params [0xC7#8, 0x85#8, 0x85#8, 0x03#8] = stops .truncated 0xC7#8 (.lengths 5 4) :=
  ⟨by decide, by decide, by decide, by decide⟩

/-- P6: with no input no step is enabled (R146). -/
theorem test_empty_input : step (load Config.params []) = .fault .passDone := rfl

/-- Section 2.5: the text of a diagnostic. -/
theorem test_diag_text : diagText ⟨.truncated, 0, 0xB8#8, .lengths 3 2⟩
      = "truncated instruction at offset 0: 10111000 (needs 3 bytes, 2 remain)" ∧
    diagText ⟨.decoderFailure, 3, 0x80#8, .selector 0b001#3⟩
      = "decoder failure at offset 3: 10000000 (selector 001)" := by decide

/-- Storing the byte an unlisted index reads as removes the cell. -/
theorem test_memory_canonical : Memory.write (Memory.write [] 3 0x07#8) 3 0x00#8 = [] ∧
    Memory.writeBytes [] 0 [0x00#8, 0x05#8, 0x00#8] = [(1, 0x05#8)] := by decide

/-! ### Witnesses: states and operands that meet the hypotheses of each statement -/

/-- A running state, one at its end, one stopped, and one past the end. -/
def atStart : State := load plainBuild [0x89#8, 0xD8#8, 0xF4#8]

def atStop : State := { atStart with cursor := 2 }

theorem atStart_inv : atStart.Inv := ⟨by decide, by decide, by decide, by decide, by decide⟩

theorem atStop_inv : atStop.Inv := ⟨by decide, by decide, by decide, by decide, by decide⟩

theorem witness_StartOfPassMeetsInvariant : plainBuild.headerOk = true := by decide

theorem witness_EveryStepKeepsInvariant : (∃ t, atStart.Inv ∧ step atStart = .next t ∧ t.run = .running) ∧
    ∃ t, atStop.Inv ∧ step atStop = .next t ∧ t.run = .stopped :=
  ⟨⟨_, atStart_inv, rfl, rfl⟩, ⟨_, atStop_inv, rfl, rfl⟩⟩

theorem witness_EveryStepKeepsOutputTheDisassembly : ∃ t, atStart.outputIsDisassembly ∧ step atStart = .next t :=
  ⟨_, ⟨[], by decide, rfl, rfl⟩, rfl⟩

theorem witness_StepNeverChangesTheInput : ∃ t, step atStart = .next t := ⟨_, rfl⟩

theorem witness_DisabledStepFaultNamesWhy :
    { atStart with run := .stopped }.run = .stopped ∧
    ((load plainBuild []).run = .running ∧ (load plainBuild []).cursor = (load plainBuild []).inputLength) ∧
    (let s := { atStart with cursor := 4 }; s.run = .running ∧ s.inputLength < s.cursor) := by decide

theorem witness_StepRunsTheDecodedInstruction : atStart.enabled ∧
    decode atStart.params atStart.fetch = .ok (.movRM false .word 0b011#3 (.reg 0b000#3)) [0xF4#8] := by decide

theorem witness_StepRunsTheEncodedInstruction :
    let i := Instr.movRM false .word 0b011#3 (.reg 0b000#3)
    atStart.run = .running ∧ i.wf atStart.params = true ∧ encode i <+: atStart.unread :=
  ⟨rfl, by decide, ⟨[0xF4#8], by decide⟩⟩

theorem witness_PlacedInstructionRunsNext :
    State.reset.input.wf ∧ (Instr.cmpIA .word (.two 0xFFFF#16)).wf State.reset.params = true := by decide

theorem witness_StepFollowsThePseudocode : atStart.enabled ∧ atStop.enabled := by decide

theorem witness_SuccessfulStepAppendsOneLineAndAdvances : ∃ t, step atStart = .next t ∧ t.run = .running := ⟨_, rfl, rfl⟩

theorem witness_ConsumptionIsTheEncodedLength :
    let s := load wideBuild [0xC7#8, 0x85#8, 0x85#8, 0x03#8, 0x5B#8, 0x01#8]
    s.enabled ∧ decode s.params s.fetch = .ok (.movIRM .word (.mem16 0b101#3 0x0385#16) (.two 0x015B#16)) [] := by
  decide

theorem witness_StopWritesRunAndDiagOnceAndIsAbsorbing :
    (∃ t, step atStop = .next t ∧ t.run = .stopped) ∧ { atStop with run := .stopped }.run = .stopped :=
  ⟨⟨_, rfl, rfl⟩, rfl⟩

theorem witness_UnrecognizedLeadingByteStops :
    (atStop.enabled ∧ recognized (atStop.input.read atStop.cursor) = false) ∧
    (atStart.enabled ∧ recognized (atStart.input.read atStart.cursor) = true) ∧
    ∃ detail, step atStop = .next (stopped atStop .unrecognizedOpcode detail) :=
  ⟨by decide, by decide, _, rfl⟩

theorem witness_UnsupportedSelectorStops :
    let s := load plainBuild [0x83#8, 0b11110000#8]
    let t := load plainBuild [0xC7#8, 0b11111000#8]
    (s.enabled ∧ s.cursor + 2 ≤ s.inputLength ∧ s.input.read s.cursor = 0x83#8 ∧
      regField (s.input.read (s.cursor + 1)) = 0b110#3) ∧
    (t.enabled ∧ t.cursor + 2 ≤ t.inputLength ∧ t.input.read t.cursor = 0xC7#8 ∧
      regField (t.input.read (t.cursor + 1)) = 0b111#3) ∧
    ∃ detail, step s = .next (stopped s .decoderFailure detail) :=
  ⟨by decide, by decide, _, rfl⟩

/-- The five outcomes of R136, each at the boundary where the check that decides it first fails. -/
theorem witness_StopReasonFollowsThePriority :
    dispatch 0xF4#8 = .unrecognized ∧
    (let s := load plainBuild [0x80#8];
      s.enabled ∧ dispatch 0x80#8 ≠ .unrecognized ∧ Pseudocode.twoByteHeader s s.cursor = true ∧
        s.inputLength - s.cursor < 2) ∧
    (let s := load plainBuild [0x80#8, 0xC8#8];
      s.enabled ∧ dispatch 0x80#8 = .irm .arith ∧ s.inputLength - s.cursor = 2 ∧
        secondary .arith (regField (s.input.read (s.cursor + 1))) = none) ∧
    (let s := load plainBuild [0x80#8, 0xC0#8];
      s.enabled ∧ dispatch 0x80#8 = .irm .arith ∧ s.inputLength - s.cursor = 2 ∧
        secondary .arith (regField (s.input.read (s.cursor + 1))) = some .add ∧
        s.inputLength - s.cursor < Pseudocode.fullLength s s.cursor) ∧
    (let s := load plainBuild [0x80#8, 0xC0#8, 0x00#8];
      s.enabled ∧ dispatch 0x80#8 = .irm .arith ∧ secondary .arith (regField (s.input.read (s.cursor + 1))) = some .add ∧
        s.inputLength - s.cursor = Pseudocode.fullLength s s.cursor) := by decide

theorem witness_StepStopsExactlyWhenNoInstructionFits : atStart.enabled ∧ atStop.enabled := by decide

theorem witness_DecodeOfEncode : (Instr.addIRM true .word (.mem8 0b110#3 0x02#8) (.one 0x05#8)).wf plainBuild = true := by
  decide

theorem witness_EncodeOfDecode : decode plainBuild [0x83#8, 0x46#8, 0x02#8, 0x05#8, 0xF4#8]
    = .ok (.addIRM true .word (.mem8 0b110#3 0x02#8) (.one 0x05#8)) [0xF4#8] := by decide

theorem witness_EveryPassTerminates : ∃ t, step atStart = .next t := ⟨_, rfl⟩

theorem witness_EncodedStreamIsRenderedWhole :
    let s := load plainBuild [0x89#8, 0xD8#8, 0xB8#8, 0x05#8, 0x00#8]
    let is := [Instr.movRM false .word 0b011#3 (.reg 0b000#3), Instr.movIR .word 0b000#3 (.two 0x0005#16)]
    s.run = .running ∧ s.cursor ≤ s.inputLength ∧ (∀ i ∈ is, i.wf s.params = true) ∧ s.unread = is.flatMap encode := by
  decide

/-- The third byte differs, and the two consumed ones agree. -/
theorem witness_OnlyConsumedBytesMatter : ∃ t, step atStart = .next t ∧ t.run = .running ∧
    (∀ k, atStart.cursor ≤ k → k < t.cursor → (atStart.input.write 2 0x90#8).read k = atStart.input.read k) :=
  ⟨_, rfl, rfl, fun k _ h => match k, h with
    | 0, _ => rfl
    | 1, _ => rfl
    | k + 2, h => absurd (show k + 2 < 2 from h) (by omega)⟩

theorem witness_BytesBeyondTheEndNeverMatter : ∃ t, step atStart = .next t ∧
    (∀ k, k < atStart.inputLength → (atStart.input.write 3 0x90#8).read k = atStart.input.read k) :=
  ⟨_, rfl, by decide⟩

theorem witness_CursorRegisterNeverWraps :
    atStart.inputLength < 2 ^ atStart.params.cursorBits ∧ ∃ t, step atStart = .next t := ⟨by decide, _, rfl⟩

theorem witness_InstructionsChangeOnlyOutAndCursor :
    ∃ t, exec (.cmpIA .byte (.one 0x09#8)) State.reset = .next t := ⟨_, rfl⟩

/-- The hypotheses of the three clauses of `regRmRule`, for a leading byte and its opcode: exactly all bytes, one byte
too few, and no second byte. -/
def regRmWitness (op6 : BitVec 6) (b0 : Byte) : Prop :=
  (let s := load plainBuild [b0, 0b10000000#8, 0x87#8, 0x13#8];
    s.enabled ∧ (s.input.read s.cursor).extractLsb' 2 6 = op6 ∧
    s.cursor + (2 + dispLen (Mode.ofField (modField (s.input.read (s.cursor + 1))))
      (rmField (s.input.read (s.cursor + 1)))) = s.inputLength) ∧
  (let s := load plainBuild [b0, 0b10000000#8, 0x87#8];
    s.enabled ∧ (s.input.read s.cursor).extractLsb' 2 6 = op6 ∧ s.cursor + 2 ≤ s.inputLength ∧
    s.inputLength + 1 = s.cursor + (2 + dispLen (Mode.ofField (modField (s.input.read (s.cursor + 1))))
      (rmField (s.input.read (s.cursor + 1))))) ∧
  (let s := load plainBuild [b0];
    s.enabled ∧ (s.input.read s.cursor).extractLsb' 2 6 = op6 ∧ s.inputLength < s.cursor + 2)

theorem witness_MovRegRmFollowsItsRule : regRmWitness 0b100010#6 0x8A#8 := by unfold regRmWitness; decide

theorem witness_AddRegRmFollowsItsRule : regRmWitness 0b000000#6 0x01#8 := by unfold regRmWitness; decide

theorem witness_SubRegRmFollowsItsRule : regRmWitness 0b001010#6 0x2B#8 := by unfold regRmWitness; decide

theorem witness_CmpRegRmFollowsItsRule : regRmWitness 0b001110#6 0x38#8 := by unfold regRmWitness; decide

theorem witness_MovImmToRegFollowsItsRule :
    (let s := load plainBuild [0xB8#8, 0x05#8, 0x00#8];
      s.enabled ∧ (s.input.read s.cursor).extractLsb' 4 4 = 0b1011#4 ∧
      s.cursor + (if byteBit (s.input.read s.cursor) 3 then 3 else 2) = s.inputLength) ∧
    (let s := load plainBuild [0xB8#8, 0x05#8];
      s.enabled ∧ (s.input.read s.cursor).extractLsb' 4 4 = 0b1011#4 ∧
      s.inputLength + 1 = s.cursor + (if byteBit (s.input.read s.cursor) 3 then 3 else 2)) := by decide

/-- The hypotheses of the four clauses of `immRmRule`, in the default build. -/
def immRmWitness (g : ImmGroup) (sel bad : Sel) (b0 : Byte) : Prop :=
  hasGroupOpcode g b0 = true ∧ secondary g bad = none ∧
  (let s := load plainBuild [b0, 0b11#2 ++ sel ++ 0b000#3, 0x01#8];
    s.enabled ∧ s.input.read s.cursor = b0 ∧ regField (s.input.read (s.cursor + 1)) = sel ∧
    s.cursor + 3 = s.inputLength ∧ dispLen (Mode.ofField (modField (s.input.read (s.cursor + 1))))
      (rmField (s.input.read (s.cursor + 1))) = 0 ∧ s.params.immRmWideData = false) ∧
  (let s := load plainBuild [b0, 0b11#2 ++ sel ++ 0b000#3];
    s.enabled ∧ s.input.read s.cursor = b0 ∧ regField (s.input.read (s.cursor + 1)) = sel ∧
    s.cursor + 2 = s.inputLength ∧ s.params.immRmWideData = false) ∧
  (let s := load plainBuild [b0, 0b11#2 ++ bad ++ 0b000#3];
    s.enabled ∧ s.input.read s.cursor = b0 ∧ regField (s.input.read (s.cursor + 1)) = bad ∧
    s.cursor + 2 = s.inputLength) ∧
  (let s := load plainBuild [b0];
    s.enabled ∧ s.input.read s.cursor = b0 ∧ s.inputLength < s.cursor + 2)

theorem witness_MovImmToRmFollowsItsRule : immRmWitness .mov 0b000#3 0b111#3 0xC7#8 := by unfold immRmWitness; decide

theorem witness_AddImmToRmFollowsItsRule : immRmWitness .arith 0b000#3 0b001#3 0x80#8 := by unfold immRmWitness; decide

theorem witness_SubImmToRmFollowsItsRule : immRmWitness .arith 0b101#3 0b100#3 0x83#8 := by unfold immRmWitness; decide

theorem witness_CmpImmToRmFollowsItsRule : immRmWitness .arith 0b111#3 0b110#3 0x81#8 := by unfold immRmWitness; decide

/-- The hypotheses of the two clauses of `immAccRule`, for a word leading byte. -/
def immAccWitness (op7 : BitVec 7) (b0 : Byte) : Prop :=
  (let s := load plainBuild [b0, 0x00#8, 0x80#8];
    s.enabled ∧ (s.input.read s.cursor).extractLsb' 1 7 = op7 ∧
    s.cursor + (if byteBit (s.input.read s.cursor) 0 then 3 else 2) = s.inputLength) ∧
  (let s := load plainBuild [b0, 0x00#8];
    s.enabled ∧ (s.input.read s.cursor).extractLsb' 1 7 = op7 ∧
    s.inputLength + 1 = s.cursor + (if byteBit (s.input.read s.cursor) 0 then 3 else 2))

theorem witness_AddImmToAccFollowsItsRule : immAccWitness 0b0000010#7 0x05#8 := by unfold immAccWitness; decide

theorem witness_SubImmToAccFollowsItsRule : immAccWitness 0b0010110#7 0x2D#8 := by unfold immAccWitness; decide

theorem witness_CmpImmToAccFollowsItsRule : immAccWitness 0b0011110#7 0x3D#8 := by unfold immAccWitness; decide

theorem witness_DispatchTablesHoldTheirContents :
    let s := load plainBuild [0xC6#8, 0x08#8]
    s.enabled ∧ s.cursor + 2 ≤ s.inputLength ∧ dispatch (s.input.read s.cursor) = .irm .mov ∧
    secondary .mov (regField (s.input.read (s.cursor + 1))) = none := by decide

theorem witness_CompletedRecordsKeepTheirInvariants :
    (recordOf (.cmpRM true .word 0b000#3 (.direct 0x0010#16))).src = .direct 0x0010#16 ∧
    (recordOf (.cmpRM true .word 0b000#3 (.mem8 0b111#3 0x80#8))).src = .mem "bx" 0xFF80#16 := by decide

theorem witness_OperandsRenderAsRuled : (0x8000#16 : Word) ≠ 0x0000#16 := by decide

theorem witness_ImmediatesRenderInTheirRange : ¬ (true = true ∧ Width.byte = .word) ∧ ¬ (false = true ∧ Width.word = .word) := by
  decide

theorem witness_OutputImageEndsEachLineWithLineFeed :
    plainBuild.headerOk = true ∧ "; disassembly" ∈ headerLines plainBuild := by decide

end Sys2Proof.Tests
end

