-- ==== Sys2Proof/Proofs/DecodeInversion.lean ====
section
/-! SUPPORT. What it means that a decoder answers an instruction: the bytes it was decoded from are the instruction's
own encoding and then the bytes it leaves. One inversion lemma per format, then `decode` from the four. -/

namespace Sys2Proof

/-- The six opcode bits of the RM format (R83 to R86). -/
def rmOpcode : Mnemonic → BitVec 6
  | .mov => 0b100010#6
  | .add => 0b000000#6
  | .sub => 0b001010#6
  | .cmp => 0b001110#6

/-- The leading byte of a group of the immediate → r/m family (R56, R91). -/
def leadIRM : ImmGroup → Bool → Width → Byte
  | .arith, s, w => leadArith s w
  | .mov, _, w => leadOp7 0b1100011#7 w

/-- The seven opcode bits of the IA format (R101 to R103). -/
def iaOpcode : AccMnemonic → BitVec 7
  | .add => 0b0000010#7
  | .sub => 0b0010110#7
  | .cmp => 0b0011110#7

/-! ### What the decoders' constructors encode to -/

@[simp] theorem encode_rmInstr (m : Mnemonic) (d : Bool) (w : Width) (reg : Sel) (rm : RmOperand) :
    encode (rmInstr m d w reg rm) = leadRM (rmOpcode m) d w :: modRegRm reg rm :: rm.dispBytes := by
  cases m <;> rfl

@[simp] theorem wf_rmInstr (p : Params) (m : Mnemonic) (d : Bool) (w : Width) (reg : Sel) (rm : RmOperand) :
    (rmInstr m d w reg rm).wf p = rm.wf := by cases m <;> rfl

@[simp] theorem encode_iaInstr (m : AccMnemonic) (w : Width) (imm : ImmData) :
    encode (iaInstr m w imm) = leadOp7 (iaOpcode m) w :: imm.bytes := by cases m <;> rfl

@[simp] theorem wf_iaInstr (p : Params) (m : AccMnemonic) (w : Width) (imm : ImmData) :
    (iaInstr m w imm).wf p = imm.fitsWidth w := by cases m <;> rfl

/-- The selectors that do not fail, with the mnemonics they select (R62). -/
theorem secondary_eq_some {g : ImmGroup} {f : Sel} {m : Mnemonic} (h : secondary g f = some m) :
    (g = .arith ∧ ((f = 0b000#3 ∧ m = .add) ∨ (f = 0b101#3 ∧ m = .sub) ∨ (f = 0b111#3 ∧ m = .cmp))) ∨
      (g = .mov ∧ f = 0b000#3 ∧ m = .mov) := by
  cases g <;> cases m <;> decide +revert

theorem encode_irmInstr {g : ImmGroup} {f : Sel} {m : Mnemonic} (h : secondary g f = some m) (b0 : Byte) (w : Width)
    (rm : RmOperand) (imm : ImmData) :
    encode (irmInstr m (signFlag g b0) w rm imm)
      = leadIRM g (signFlag g b0) w :: modRegRm f rm :: (rm.dispBytes ++ imm.bytes) := by
  obtain ⟨rfl, ⟨rfl, rfl⟩ | ⟨rfl, rfl⟩ | ⟨rfl, rfl⟩⟩ | ⟨rfl, rfl, rfl⟩ := secondary_eq_some h <;> rfl

theorem wf_irmInstr {g : ImmGroup} {f : Sel} {m : Mnemonic} (h : secondary g f = some m) (p : Params) (b0 : Byte)
    (w : Width) (rm : RmOperand) (imm : ImmData) :
    (irmInstr m (signFlag g b0) w rm imm).wf p = (rm.wf && imm.fitsIRM p (signFlag g b0) w) := by
  obtain ⟨rfl, ⟨rfl, rfl⟩ | ⟨rfl, rfl⟩ | ⟨rfl, rfl⟩⟩ | ⟨rfl, rfl, rfl⟩ := secondary_eq_some h <;> rfl

/-! ### A dispatched leading byte is its opcode and flags (R60) -/

theorem leadRM_of_dispatch {m : Mnemonic} {b0 : Byte} (h : dispatch b0 = .rm m) :
    leadRM (rmOpcode m) (byteBit b0 1) (.ofBit (byteBit b0 0)) = b0 := by
  cases m <;> decide +revert

theorem leadIR_of_dispatch {b0 : Byte} (h : dispatch b0 = .ir) :
    leadIR (.ofBit (byteBit b0 3)) (b0.extractLsb' 0 3) = b0 := by
  decide +revert

theorem leadIRM_of_dispatch {g : ImmGroup} {b0 : Byte} (h : dispatch b0 = .irm g) :
    leadIRM g (signFlag g b0) (.ofBit (byteBit b0 0)) = b0 := by
  cases g <;> decide +revert

theorem leadOp7_of_dispatch {m : AccMnemonic} {b0 : Byte} (h : dispatch b0 = .ia m) :
    leadOp7 (iaOpcode m) (.ofBit (byteBit b0 0)) = b0 := by
  cases m <;> decide +revert

/-! ### The decoders -/

/-- The immediate of the IR and IA formats is read exactly where the data bytes of its width exist (R73). -/
theorem readImm_width_eq_some {w : Width} {bs rest : List Byte} {imm : ImmData} :
    readImm (immLenW w) bs = some (imm, rest) ↔ imm.fitsWidth w = true ∧ bs = imm.bytes ++ rest := by
  rw [readImm_eq_some (immLenW_cases w), ImmData.fitsWidth_iff]

/-- The immediate of the IRM format is read exactly where its data bytes exist (R74). -/
theorem readImm_irm_eq_some {p : Params} {s : Bool} {w : Width} {bs rest : List Byte} {imm : ImmData} :
    readImm (immLenIRM p s w) bs = some (imm, rest) ↔ imm.fitsIRM p s w = true ∧ bs = imm.bytes ++ rest := by
  rw [readImm_eq_some (immLenIRM_cases p s w), ImmData.fitsIRM_iff]

/-- The RM decoder answers an instruction exactly where a second byte and the displacement it asks for exist (R81). -/
theorem decodeRM_eq_ok {m : Mnemonic} {b0 : Byte} {bs rest : List Byte} {i : Instr} :
    decodeRM m b0 bs = .ok i rest ↔ ∃ rm reg, rm.wf = true ∧ bs = modRegRm reg rm :: (rm.dispBytes ++ rest) ∧
      i = rmInstr m (byteBit b0 1) (.ofBit (byteBit b0 0)) reg rm := by
  constructor
  · intro h
    cases bs with
    | nil => cases h
    | cons b1 tail =>
      simp only [decodeRM] at h
      split at h
      · cases h
      · next rm t hr =>
        obtain ⟨hw, hmode, hsel, rfl⟩ := readRm_eq_some.mp hr
        obtain ⟨rfl, rfl⟩ := DecodeResult.ok.inj h
        exact ⟨rm, _, hw, by rw [modRegRm_fields hmode rfl hsel], rfl⟩
  · rintro ⟨rm, reg, hw, rfl, rfl⟩
    have hr : readRm rm.mode rm.sel (rm.dispBytes ++ rest) = some (rm, rest) := readRm_eq_some.mpr ⟨hw, rfl, rfl, rfl⟩
    simp [decodeRM, hr]

/-- The IR decoder answers an instruction exactly where the data bytes of its width exist (R88). -/
theorem decodeIR_eq_ok {b0 : Byte} {bs rest : List Byte} {i : Instr} :
    decodeIR b0 bs = .ok i rest ↔ ∃ imm, imm.fitsWidth (.ofBit (byteBit b0 3)) = true ∧ bs = imm.bytes ++ rest ∧
      i = .movIR (.ofBit (byteBit b0 3)) (b0.extractLsb' 0 3) imm := by
  constructor
  · intro h
    simp only [decodeIR] at h
    split at h
    · cases h
    · next imm t hr =>
      obtain ⟨hf, rfl⟩ := readImm_width_eq_some.mp hr
      obtain ⟨rfl, rfl⟩ := DecodeResult.ok.inj h
      exact ⟨imm, hf, rfl, rfl⟩
  · rintro ⟨imm, hf, rfl, rfl⟩
    simp only [decodeIR, readImm_width_eq_some.mpr ⟨hf, rfl⟩]

/-- The IA decoder answers an instruction exactly where the data bytes of its width exist (R99). -/
theorem decodeIA_eq_ok {m : AccMnemonic} {b0 : Byte} {bs rest : List Byte} {i : Instr} :
    decodeIA m b0 bs = .ok i rest ↔ ∃ imm, imm.fitsWidth (.ofBit (byteBit b0 0)) = true ∧ bs = imm.bytes ++ rest ∧
      i = iaInstr m (.ofBit (byteBit b0 0)) imm := by
  constructor
  · intro h
    simp only [decodeIA] at h
    split at h
    · cases h
    · next imm t hr =>
      obtain ⟨hf, rfl⟩ := readImm_width_eq_some.mp hr
      obtain ⟨rfl, rfl⟩ := DecodeResult.ok.inj h
      exact ⟨imm, hf, rfl, rfl⟩
  · rintro ⟨imm, hf, rfl, rfl⟩
    simp only [decodeIA, readImm_width_eq_some.mpr ⟨hf, rfl⟩]

/-- The IRM decoder answers an instruction exactly where the selector does not fail, and the displacement and the data
bytes exist (R92). -/
theorem decodeIRM_eq_ok {p : Params} {g : ImmGroup} {b0 : Byte} {bs rest : List Byte} {i : Instr} :
    decodeIRM p g b0 bs = .ok i rest ↔ ∃ f m rm imm, secondary g f = some m ∧ rm.wf = true ∧
      imm.fitsIRM p (signFlag g b0) (.ofBit (byteBit b0 0)) = true ∧
      bs = modRegRm f rm :: (rm.dispBytes ++ (imm.bytes ++ rest)) ∧
      i = irmInstr m (signFlag g b0) (.ofBit (byteBit b0 0)) rm imm := by
  constructor
  · intro h
    cases bs with
    | nil => cases h
    | cons b1 tail =>
      simp only [decodeIRM] at h
      split at h
      · cases h
      · next m hm =>
        split at h
        · cases h
        · next rm t hr =>
          split at h
          · cases h
          · next imm u hi =>
            obtain ⟨hw, hmode, hsel, rfl⟩ := readRm_eq_some.mp hr
            obtain ⟨hf, rfl⟩ := readImm_irm_eq_some.mp hi
            obtain ⟨rfl, rfl⟩ := DecodeResult.ok.inj h
            exact ⟨_, m, rm, imm, hm, hw, hf, by rw [modRegRm_fields hmode rfl hsel], rfl⟩
  · rintro ⟨f, m, rm, imm, hm, hw, hf, rfl, rfl⟩
    have hr : readRm rm.mode rm.sel (rm.dispBytes ++ (imm.bytes ++ rest)) = some (rm, imm.bytes ++ rest) :=
      readRm_eq_some.mpr ⟨hw, rfl, rfl, rfl⟩
    simp [decodeIRM, hm, hr, readImm_irm_eq_some.mpr ⟨hf, rfl⟩]

/-- What decodes is well formed, and was decoded from its own encoding: by the format of the leading byte (R60, R64). -/
theorem wf_and_bytes_of_decode {p : Params} {bs rest : List Byte} {i : Instr} (h : decode p bs = .ok i rest) :
    i.wf p = true ∧ bs = encode i ++ rest := by
  cases bs with
  | nil => cases h
  | cons b0 tail =>
    simp only [decode] at h
    split at h
    · cases h
    · next m hd =>
      obtain ⟨rm, reg, hw, rfl, rfl⟩ := decodeRM_eq_ok.mp h
      simp [hw, leadRM_of_dispatch hd]
    · next hd =>
      obtain ⟨imm, hf, rfl, rfl⟩ := decodeIR_eq_ok.mp h
      simp [Instr.wf, hf, encode, leadIR_of_dispatch hd]
    · next g hd =>
      obtain ⟨f, m, rm, imm, hm, hw, hf, rfl, rfl⟩ := decodeIRM_eq_ok.mp h
      simp [wf_irmInstr hm, hw, hf, encode_irmInstr hm, leadIRM_of_dispatch hd]
    · next m hd =>
      obtain ⟨imm, hf, rfl, rfl⟩ := decodeIA_eq_ok.mp h
      simp [hf, leadOp7_of_dispatch hd]

/-- A decoded instruction is no longer than the bytes it was decoded from (R75). -/
theorem length_le_of_decode {p : Params} {bs rest : List Byte} {i : Instr} (h : decode p bs = .ok i rest) :
    i.length ≤ bs.length := by
  obtain ⟨-, rfl⟩ := wf_and_bytes_of_decode h
  simp

end Sys2Proof
end

