-- ==== Sys2Proof/Proofs/CursorRegister.lean ====
section
/-! SUPPORT. The cursor of a step stays within the input (R123), so that a register of `CURSOR_BITS` bits holds it. -/

namespace Sys2Proof.Machine

/-- The loop hands the decoder no more bytes than remain from the cursor on (R120). -/
theorem State.fetch_length_le (s : State) : s.fetch.length ≤ s.inputLength - s.cursor := by
  simp [State.fetch_eq_take_unread]

/-- A step never moves the cursor back, nor past the end of the input (R21, R123). -/
theorem step_cursor_bounds {s t : State} (h : step s = .next t) : s.cursor ≤ t.cursor ∧ t.cursor ≤ s.inputLength := by
  obtain ⟨⟨-, hlt⟩, ⟨i, rest, hd, rfl⟩ | ⟨r, -, rfl⟩⟩ := step_next_cases h
  · have hlen : i.length ≤ s.inputLength - s.cursor := (length_le_of_decode hd).trans s.fetch_length_le
    show s.cursor ≤ s.cursor + i.length ∧ s.cursor + i.length ≤ s.inputLength
    omega
  · simp [hlt.le]

/-- Settles O32: the cursor of the next state is at most `N` (R123), and `N` fits the register (R12). -/
theorem cursorRegisterNeverWraps : Obligations.CursorRegisterNeverWraps := by
  unfold Obligations.CursorRegisterNeverWraps
  intro s t hN h
  obtain ⟨hforward, hend⟩ := step_cursor_bounds h
  constructor
  · rw [BitVec.toNat_ofNat, Nat.mod_eq_of_lt (hend.trans_lt hN)]
  · rw [← BitVec.ofNat_add, Nat.add_sub_cancel' hforward]

end Sys2Proof.Machine
end

