-- ==== Sys2Proof/Proofs/DecodePrefix.lean ====
section
/-! SUPPORT. The decoder has no lookahead (R36, R44): the bytes after an instruction's encoding do not change what
decodes, so the step sees only the bytes it consumes. -/

namespace Sys2Proof

/-- What decoded from some bytes decodes from its own encoding before any other bytes. -/
theorem decode_encode_append_of_decode {p : Params} {bs rest : List Byte} {i : Instr} (h : decode p bs = .ok i rest)
    (rest' : List Byte) : decode p (encode i ++ rest') = .ok i rest' := by
  cases bs with
  | nil => cases h
  | cons b0 tail =>
    simp only [decode] at h
    split at h
    · cases h
    · next m hd =>
      obtain ⟨rm, reg, hw, -, rfl⟩ := decodeRM_eq_ok.mp h
      simp [decode, leadRM_of_dispatch hd, hd, decodeRM_eq_ok.mpr ⟨rm, reg, hw, rfl, rfl⟩]
    · next hd =>
      obtain ⟨imm, hf, -, rfl⟩ := decodeIR_eq_ok.mp h
      simp [decode, encode, leadIR_of_dispatch hd, hd, decodeIR_eq_ok.mpr ⟨imm, hf, rfl, rfl⟩]
    · next g hd =>
      obtain ⟨f, m, rm, imm, hm, hw, hf, -, rfl⟩ := decodeIRM_eq_ok.mp h
      simp [decode, encode_irmInstr hm, leadIRM_of_dispatch hd, hd,
        decodeIRM_eq_ok.mpr ⟨f, m, rm, imm, hm, hw, hf, rfl, rfl⟩]
    · next m hd =>
      obtain ⟨imm, hf, -, rfl⟩ := decodeIA_eq_ok.mp h
      simp [decode, leadOp7_of_dispatch hd, hd, decodeIA_eq_ok.mpr ⟨imm, hf, rfl, rfl⟩]

/-- An instruction decodes from all bytes that begin with the bytes it was decoded from. -/
theorem decode_of_take_eq {p : Params} {bs bs' rest : List Byte} {i : Instr} (h : decode p bs = .ok i rest)
    (hp : bs'.take i.length = bs.take i.length) : decode p bs' = .ok i (bs'.drop i.length) := by
  obtain ⟨-, rfl⟩ := wf_and_bytes_of_decode h
  have henc : encode i = bs'.take i.length := by rw [hp, ← encode_length i, List.take_left]
  calc decode p bs' = decode p (encode i ++ bs'.drop i.length) := by rw [henc, List.take_append_drop]
    _ = .ok i (bs'.drop i.length) := decode_encode_append_of_decode h _

end Sys2Proof

namespace Sys2Proof.Machine

/-- The first `k` bytes handed to the decoder are those of the buffer's indices from the cursor to `cursor + k`. -/
theorem State.take_fetch_congr {s : State} {m : Memory} {k : Nat}
    (hm : ∀ j, s.cursor ≤ j → j < s.cursor + k → m.read j = s.input.read j) :
    ({ s with input := m } : State).fetch.take k = s.fetch.take k := by
  simp only [State.fetch_eq_take_unread, State.unread, ← List.map_take, List.take_range]
  refine List.map_congr_left (fun j hj => hm _ (by omega) ?_)
  have := List.mem_range.mp hj
  omega

/-- Settles O30: the bytes a successful step consumes are the encoding it decoded, and the decoder sees no further. -/
theorem onlyConsumedBytesMatter : Obligations.OnlyConsumedBytesMatter := by
  unfold Obligations.OnlyConsumedBytesMatter
  intro s t m h hrun hm
  obtain ⟨hen, ⟨i, rest, hd, rfl⟩ | ⟨r, -, rfl⟩⟩ := step_next_cases h
  · have hd' := decode_of_take_eq hd (State.take_fetch_congr hm)
    exact step_of_ok (s := { s with input := m }) hen hd'
  · simp at hrun

end Sys2Proof.Machine
end

