-- ==== Sys2Proof/Proofs/StepInvariant.lean ====
section
/-! SUPPORT. What a step keeps: the input and the build (R28, R51), and the block's whole invariant. A stop needs that
every rejection carries the detail its reason asks for (R130, R134). -/

namespace Sys2Proof

/-- No addressing mode asks for more than two displacement bytes (R64). -/
theorem dispLen_le (mode : Mode) (rm : Sel) : dispLen mode rm ≤ 2 := by
  cases mode with
  | mem0 => simp only [dispLen]; split <;> omega
  | mem8 => simp [dispLen]
  | mem16 => simp [dispLen]
  | regd => simp [dispLen]

end Sys2Proof

namespace Sys2Proof.Machine

/-- Settles O10: neither of the two things a step can do writes `IN`, `N` or the parameters. -/
theorem stepNeverChangesTheInput : Obligations.StepNeverChangesTheInput := by
  unfold Obligations.StepNeverChangesTheInput
  intro s t h
  obtain ⟨-, ⟨i, rest, -, rfl⟩ | ⟨r, -, rfl⟩⟩ := step_next_cases h
  · exact ⟨rfl, rfl, rfl, fun _ => rfl⟩
  · exact ⟨rfl, rfl, rfl, fun _ => rfl⟩

/-! ### The detail of a rejection -/

/-- The detail of a rejection has the form of its reason, where `remain` bytes were handed to the decoder. -/
def RejectFits (remain : Nat) (r : Reject) : Prop := StopDetail.fits remain (rejectReason r) (rejectDetail r) = true

theorem rejectFits_unrecognizedOpcode (n : Nat) : RejectFits n .unrecognizedOpcode := rfl

theorem rejectFits_decoderFailure (n : Nat) (sel : Option Sel) : RejectFits n (.decoderFailure sel) := by
  cases sel <;> rfl

@[simp] theorem rejectFits_truncated {n need remain : Nat} :
    RejectFits n (.truncated need remain) ↔ remain = n ∧ remain < need ∧ need ≤ maxInstrLength := by
  simp [RejectFits, rejectReason, rejectDetail, StopDetail.fits, and_assoc]

theorem decodeRM_reject_fits {m : Mnemonic} {b0 : Byte} {tail : List Byte} {r : Reject}
    (h : decodeRM m b0 tail = .reject r) : RejectFits (b0 :: tail).length r := by
  cases tail with
  | nil =>
    obtain rfl := DecodeResult.reject.inj h
    simp [maxInstrLength]
  | cons b1 tail =>
    simp only [decodeRM] at h
    split at h
    · next hr =>
      obtain rfl := DecodeResult.reject.inj h
      have hshort := readRm_eq_none.mp hr
      have hle := dispLen_le (Mode.ofField (modField b1)) (rmField b1)
      simp only [rejectFits_truncated, List.length_cons, maxInstrLength]
      omega
    · cases h

/-- An immediate that cannot be read after the leading byte is a truncation of the IR and IA formats (R73, R133). -/
theorem rejectFits_of_readImm_eq_none {w : Width} {b0 : Byte} {tail : List Byte}
    (h : readImm (immLenW w) tail = none) :
    RejectFits (b0 :: tail).length (.truncated (1 + immLenW w) (1 + tail.length)) := by
  have hcases := immLenW_cases w
  have hshort := (readImm_eq_none hcases).mp h
  simp only [rejectFits_truncated, List.length_cons, maxInstrLength]
  omega

theorem decodeIR_reject_fits {b0 : Byte} {tail : List Byte} {r : Reject} (h : decodeIR b0 tail = .reject r) :
    RejectFits (b0 :: tail).length r := by
  simp only [decodeIR] at h
  split at h
  · next hr =>
    obtain rfl := DecodeResult.reject.inj h
    exact rejectFits_of_readImm_eq_none hr
  · cases h

theorem decodeIA_reject_fits {m : AccMnemonic} {b0 : Byte} {tail : List Byte} {r : Reject}
    (h : decodeIA m b0 tail = .reject r) : RejectFits (b0 :: tail).length r := by
  simp only [decodeIA] at h
  split at h
  · next hr =>
    obtain rfl := DecodeResult.reject.inj h
    exact rejectFits_of_readImm_eq_none hr
  · cases h

theorem decodeIRM_reject_fits {p : Params} {g : ImmGroup} {b0 : Byte} {tail : List Byte} {r : Reject}
    (h : decodeIRM p g b0 tail = .reject r) : RejectFits (b0 :: tail).length r := by
  cases tail with
  | nil =>
    obtain rfl := DecodeResult.reject.inj h
    simp [maxInstrLength]
  | cons b1 tail =>
    have hle := dispLen_le (Mode.ofField (modField b1)) (rmField b1)
    have himm := immLenIRM_cases p (signFlag g b0) (Width.ofBit (byteBit b0 0))
    simp only [decodeIRM] at h
    split at h
    · obtain rfl := DecodeResult.reject.inj h
      exact rejectFits_decoderFailure _ _
    · split at h
      · next hr =>
        obtain rfl := DecodeResult.reject.inj h
        have hshort := readRm_eq_none.mp hr
        simp only [rejectFits_truncated, List.length_cons, maxInstrLength]
        omega
      · next op t hr =>
        split at h
        · next hi =>
          obtain rfl := DecodeResult.reject.inj h
          obtain ⟨hw, hmode, hsel, rfl⟩ := readRm_eq_some.mp hr
          have hdisp := RmOperand.dispLen_eq hw
          have hshort := (readImm_eq_none himm).mp hi
          rw [hmode, hsel] at hdisp
          simp only [rejectFits_truncated, List.length_cons, List.length_append, RmOperand.dispBytes_length,
            maxInstrLength]
          omega
        · cases h

/-- Every rejection carries a detail of its reason's form; a truncation names as remaining the bytes that were there,
and as needed more than those, but no more than the longest instruction (R64, R130, R134). -/
theorem decode_reject_fits {p : Params} {bs : List Byte} {r : Reject} (h : decode p bs = .reject r) :
    RejectFits bs.length r := by
  cases bs with
  | nil =>
    obtain rfl := DecodeResult.reject.inj h
    simp [maxInstrLength]
  | cons b0 tail =>
    simp only [decode] at h
    split at h
    · obtain rfl := DecodeResult.reject.inj h
      exact rejectFits_unrecognizedOpcode _
    · exact decodeRM_reject_fits h
    · exact decodeIR_reject_fits h
    · exact decodeIRM_reject_fits h
    · exact decodeIA_reject_fits h

/-- Fewer bytes than the longest instruction has reach the decoder only where no more exist, so the count a truncation
names is that of all remaining bytes. -/
theorem RejectFits.of_fetch {s : State} {r : Reject} (h : RejectFits s.fetch.length r) :
    RejectFits (s.inputLength - s.cursor) r := by
  cases r with
  | unrecognizedOpcode => exact rejectFits_unrecognizedOpcode _
  | decoderFailure sel => exact rejectFits_decoderFailure _ sel
  | truncated need remain =>
    simp only [rejectFits_truncated, State.fetch_eq_take_unread, List.length_take, State.unread_length] at h ⊢
    omega

/-! ### The invariant -/

/-- While RUNNING the diagnostic is empty, and an empty one is all that R22 asks. -/
theorem State.statusOk_of_running {s : State} (h : s.run = .running) : s.statusOk = true ↔ s.diag = none := by
  cases hd : s.diag <;> simp [State.statusOk, h, hd]

/-- A stop before the end of the input leaves a diagnostic that agrees with the cursor and the input (R24, R137). -/
theorem State.stopWith_statusOk {s : State} {r : Reject} (hlt : s.cursor < s.inputLength)
    (hr : RejectFits (s.inputLength - s.cursor) r) : (s.stopWith r).statusOk = true := by
  unfold RejectFits at hr
  simp [State.statusOk, hlt, hr]

/-- A line appended behind the two header lines leaves them first (R145). -/
theorem headersFirst_append {p : Params} {out : List String} (h : out.take 2 = headerLines p) (lines : List String) :
    (out ++ lines).take 2 = headerLines p := by
  have hlen : 2 ≤ out.length := by
    have := congrArg List.length h
    simp only [List.length_take, headerLines, List.length_cons, List.length_nil] at this
    omega
  rw [List.take_append_of_le_length hlen, h]

/-- A step on a decoded instruction keeps the invariant: the line goes behind the header lines, and the cursor passes
no more bytes than were decoded. -/
theorem State.Inv.of_ok {s : State} (hs : s.Inv) (hen : s.enabled) {i : Instr} {rest : List Byte}
    (hd : decode s.params s.fetch = .ok i rest) :
    ({ s with out := s.out ++ [lineOf s.params i], cursor := s.cursor + i.length } : State).Inv where
  inputOk := hs.inputOk
  cursorInRange := (step_cursor_bounds (step_of_ok hen hd)).2
  statusOk := by
    have hdiag : s.diag = none := (State.statusOk_of_running hen.1).mp hs.statusOk
    refine (State.statusOk_of_running ?_).mpr hdiag
    exact hen.1
  headersFirst := headersFirst_append hs.headersFirst _
  headerOk := hs.headerOk

/-- A stop for a rejection keeps the invariant: only `run` and `diag` are written. -/
theorem State.Inv.of_reject {s : State} (hs : s.Inv) (hen : s.enabled) {r : Reject}
    (hd : decode s.params s.fetch = .reject r) : (s.stopWith r).Inv where
  inputOk := hs.inputOk
  cursorInRange := hs.cursorInRange
  statusOk := State.stopWith_statusOk hen.2 (decode_reject_fits hd).of_fetch
  headersFirst := hs.headersFirst
  headerOk := hs.headerOk

/-- Settles O7, by the two things a step can do: run a decoded instruction, or stop. -/
theorem everyStepKeepsInvariant : Obligations.EveryStepKeepsInvariant := by
  unfold Obligations.EveryStepKeepsInvariant
  intro s t hs h
  obtain ⟨hen, ⟨i, rest, hd, rfl⟩ | ⟨r, hd, rfl⟩⟩ := step_next_cases h
  · exact hs.of_ok hen hd
  · exact hs.of_reject hen hd

end Sys2Proof.Machine
end

