-- ==== Sys2Proof/Proofs/RecordInvariants.lean ====
section
/-! SUPPORT. The invariants of a completed record (R33), one lemma per record format. -/

namespace Sys2Proof.Machine

open Sys2Proof.Rules

/-- R33 item 2 on one slot: a direct address only in mode 00 with `rm` 110, a memory operand only in the other memory
cases. -/
def slotFits (mode : Mode) (rm : Sel) : Operand → Prop
  | .direct _ => mode = .mem0 ∧ rm = 0b110#3
  | .mem _ _ => mode ≠ .regd ∧ ¬ (mode = .mem0 ∧ rm = 0b110#3)
  | .reg _ => True
  | .imm _ => True

/-- The instructions of the register/memory ↔ register family, which carry no immediate (R63). -/
def isRegRm : Instr → Bool
  | .movRM _ _ _ _ => true
  | .addRM _ _ _ _ => true
  | .subRM _ _ _ _ => true
  | .cmpRM _ _ _ _ => true
  | _ => false

theorem isRegRm_eq_false {i : Instr} : isRegRm i = false ↔ ∀ d w reg rm, i ≠ .movRM d w reg rm ∧
    i ≠ .addRM d w reg rm ∧ i ≠ .subRM d w reg rm ∧ i ≠ .cmpRM d w reg rm := by
  constructor
  · cases i <;> simp [isRegRm]
  · intro h
    cases i with
    | movRM d w reg rm => simpa using h d w reg rm
    | addRM d w reg rm => simpa using h d w reg rm
    | subRM d w reg rm => simpa using h d w reg rm
    | cmpRM d w reg rm => simpa using h d w reg rm
    | _ => rfl

/-- R33 from what it says of each slot. -/
theorem recordInvariants_of_slots {i : Instr} {r : Record}
    (hdisp : r.disp ≠ 0x0000#16 → r.mode ≠ .regd ∧ (r.mode = .mem0 → r.rm = 0b110#3))
    (hdst : slotFits r.mode r.rm r.dst) (hsrc : slotFits r.mode r.rm r.src) (hdstImm : ∀ v, r.dst ≠ .imm v)
    (hsrcImm : (∃ v, r.src = .imm v) ↔ isRegRm i = false)
    (hmem : ¬ (isMemory r.dst = true ∧ isMemory r.src = true)) : recordInvariants i r := by
  have hslot : ∀ o, o = r.dst ∨ o = r.src → slotFits r.mode r.rm o := by
    rintro o (rfl | rfl)
    · exact hdst
    · exact hsrc
  refine ⟨hdisp, ?_, ?_, hdstImm, hsrcImm.trans isRegRm_eq_false, hmem⟩
  · rintro o a ho rfl
    exact hslot _ ho
  · rintro o e x ho rfl
    exact hslot _ ho

/-! ### The rm operand -/

/-- The operand resolver answers the kind of operand its mode and selector ask for (R76). -/
theorem rmOperand_slotFits (w : Width) (rm : RmOperand) : slotFits rm.mode rm.sel (rmOperand w rm) := by
  cases rm with
  | reg _ => trivial
  | mem0 r =>
    by_cases hr : r = 0b110#3 <;> simp [rmOperand, resolveRm, RmOperand.mode, RmOperand.sel, slotFits, hr]
  | direct _ => exact ⟨rfl, rfl⟩
  | mem8 _ _ => simp [rmOperand, resolveRm, RmOperand.mode, slotFits]
  | mem16 _ _ => simp [rmOperand, resolveRm, RmOperand.mode, slotFits]

theorem rmOperand_ne_imm (w : Width) (rm : RmOperand) (v : Word) : rmOperand w rm ≠ .imm v := by
  cases rm with
  | mem0 r => by_cases hr : r = 0b110#3 <;> simp [rmOperand, resolveRm, RmOperand.mode, RmOperand.sel, hr]
  | reg _ => nofun
  | direct _ => nofun
  | mem8 _ _ => nofun
  | mem16 _ _ => nofun

/-- A displacement other than zero comes with a mode that has one (R33 item 1, R72). -/
theorem mode_of_dispValue_ne_zero {rm : RmOperand} (h : dispValue rm ≠ 0x0000#16) :
    rm.mode ≠ .regd ∧ (rm.mode = .mem0 → rm.sel = 0b110#3) := by
  cases rm with
  | reg _ => exact absurd rfl h
  | mem0 _ => exact absurd rfl h
  | direct _ => simp [RmOperand.mode, RmOperand.sel]
  | mem8 _ _ => simp [RmOperand.mode]
  | mem16 _ _ => simp [RmOperand.mode]

/-! ### The record of each format -/

/-- The record of the RM format keeps R33: one slot is a register, the other the resolved rm operand (R77, R78). -/
theorem recordRM_invariants {i : Instr} (hi : isRegRm i = true) (m : Mnemonic) (d : Bool) (w : Width) (reg : Sel)
    (rm : RmOperand) : recordInvariants i (recordRM m d w reg rm) := by
  have hnot : ¬ isRegRm i = false := by simp [hi]
  cases d with
  | false =>
    refine recordInvariants_of_slots mode_of_dispValue_ne_zero (rmOperand_slotFits w rm) trivial
      (rmOperand_ne_imm w rm) (iff_of_false ?_ hnot) ?_
    · rintro ⟨v, hv⟩
      cases hv
    · rintro ⟨-, hsrc⟩
      cases hsrc
  | true =>
    refine recordInvariants_of_slots mode_of_dispValue_ne_zero trivial (rmOperand_slotFits w rm)
      nofun (iff_of_false ?_ hnot) ?_
    · rintro ⟨v, hv⟩
      exact rmOperand_ne_imm w rm v hv
    · rintro ⟨hdst, -⟩
      cases hdst

/-- A record whose source is an immediate keeps R33 where its displacement and its destination do. -/
theorem immRecord_invariants {i : Instr} {r : Record} (hi : isRegRm i = false)
    (hdisp : r.disp ≠ 0x0000#16 → r.mode ≠ .regd ∧ (r.mode = .mem0 → r.rm = 0b110#3))
    (hdst : slotFits r.mode r.rm r.dst) (hdstImm : ∀ v, r.dst ≠ .imm v) {v : Word} (hsrc : r.src = .imm v) :
    recordInvariants i r := by
  refine recordInvariants_of_slots hdisp hdst ?_ hdstImm (iff_of_true ⟨v, hsrc⟩ hi) ?_
  · rw [hsrc]
    trivial
  · rw [hsrc]
    rintro ⟨-, hmem⟩
    cases hmem

/-- The record of the IRM format keeps R33: the destination is the resolved rm operand (R92). -/
theorem recordIRM_invariants {i : Instr} (hi : isRegRm i = false) (m : Mnemonic) (s : Bool) (w : Width) (sel : Sel)
    (rm : RmOperand) (imm : ImmData) : recordInvariants i (recordIRM m s w sel rm imm) :=
  immRecord_invariants hi mode_of_dispValue_ne_zero (rmOperand_slotFits w rm) (rmOperand_ne_imm w rm) rfl

/-- The record of the IR format keeps R33: the destination is a register (R88). -/
theorem recordIR_invariants {i : Instr} (hi : isRegRm i = false) (w : Width) (reg : Sel) (imm : ImmData) :
    recordInvariants i (recordIR w reg imm) :=
  immRecord_invariants hi (fun h => absurd rfl h) trivial nofun rfl

/-- The record of the IA format keeps R33: the destination is the accumulator (R99). -/
theorem recordIA_invariants {i : Instr} (hi : isRegRm i = false) (m : Mnemonic) (w : Width) (imm : ImmData) :
    recordInvariants i (recordIA m w imm) :=
  immRecord_invariants hi (fun h => absurd rfl h) trivial nofun rfl

/-- Settles O52, by the format of each instruction's record. -/
theorem completedRecordsKeepTheirInvariants : Obligations.CompletedRecordsKeepTheirInvariants := by
  unfold Obligations.CompletedRecordsKeepTheirInvariants
  intro i
  cases i with
  | movRM d w reg rm => exact recordRM_invariants rfl .mov d w reg rm
  | addRM d w reg rm => exact recordRM_invariants rfl .add d w reg rm
  | subRM d w reg rm => exact recordRM_invariants rfl .sub d w reg rm
  | cmpRM d w reg rm => exact recordRM_invariants rfl .cmp d w reg rm
  | movIR w reg imm => exact recordIR_invariants rfl w reg imm
  | movIRM w rm imm => exact recordIRM_invariants rfl .mov false w 0b000#3 rm imm
  | addIRM s w rm imm => exact recordIRM_invariants rfl .add s w 0b000#3 rm imm
  | subIRM s w rm imm => exact recordIRM_invariants rfl .sub s w 0b101#3 rm imm
  | cmpIRM s w rm imm => exact recordIRM_invariants rfl .cmp s w 0b111#3 rm imm
  | addIA w imm => exact recordIA_invariants rfl .add w imm
  | subIA w imm => exact recordIA_invariants rfl .sub w imm
  | cmpIA w imm => exact recordIA_invariants rfl .cmp w imm

end Sys2Proof.Machine
end

