-- ==== Sys2Proof/Proofs/InputBeyondEnd.lean ====
section
/-! SUPPORT. A step reads the input buffer below `N` only (R45): the bytes handed to the decoder, and the byte at the
cursor that a stop records (R134). -/

namespace Sys2Proof.Machine

/-- The bytes handed to the decoder are the same where two buffers agree from the cursor to `N`: there are no more
of them than remain. -/
theorem State.fetch_congr {s : State} {m : Memory}
    (hm : ∀ j, s.cursor ≤ j → j < s.inputLength → m.read j = s.input.read j) :
    ({ s with input := m } : State).fetch = s.fetch := by
  have htake := State.take_fetch_congr (s := s) (m := m) (k := s.inputLength - s.cursor)
    (fun j hle hlt => hm j hle (by omega))
  have hlen : ({ s with input := m } : State).fetch.length ≤ s.inputLength - s.cursor := State.fetch_length_le _
  rwa [List.take_of_length_le hlen, List.take_of_length_le s.fetch_length_le] at htake

/-- Of the buffer, a stop reads the byte at the cursor only (R125, R134). -/
theorem State.stopWith_congr {s : State} {m : Memory} (r : Reject)
    (hm : m.read s.cursor = s.input.read s.cursor) :
    ({ s with input := m } : State).stopWith r = { s.stopWith r with input := m } := by
  simp [State.stopWith, State.stop, hm]

/-- Settles O31: an enabled step has its cursor below `N` (R119), so neither the decoder nor the record of a stop
reads a byte at or after `N`. -/
theorem bytesBeyondTheEndNeverMatter : Obligations.BytesBeyondTheEndNeverMatter := by
  unfold Obligations.BytesBeyondTheEndNeverMatter
  intro s t m h hm
  have hfetch := State.fetch_congr (s := s) (m := m) (fun j _ hlt => hm j hlt)
  obtain ⟨hen, ⟨i, rest, hd, rfl⟩ | ⟨r, hd, rfl⟩⟩ := step_next_cases h
  · rw [← hfetch] at hd
    exact step_of_ok (s := { s with input := m }) hen hd
  · rw [← hfetch] at hd
    rw [step_of_reject (s := { s with input := m }) hen hd, State.stopWith_congr r (hm s.cursor hen.2)]

end Sys2Proof.Machine
end

