-- ==== Sys2Proof/Proofs/DecodeOfEncode.lean ====
section
/-! SUPPORT. The round trip of decoder and encoder: a leading byte of a format dispatches to that format's decoder and
gives back its flags, so each decoder reads back the instruction its format wrote. -/

namespace Sys2Proof

/-! ### The leading byte of a format dispatches to its decoder (R60) -/

theorem dispatch_leadRM (m : Mnemonic) (d : Bool) (w : Width) : dispatch (leadRM (rmOpcode m) d w) = .rm m := by
  cases m <;> cases w <;> decide +revert

theorem dispatch_leadIR (w : Width) (reg : Sel) : dispatch (leadIR w reg) = .ir := by
  cases w <;> decide +revert

theorem dispatch_leadIRM (g : ImmGroup) (s : Bool) (w : Width) : dispatch (leadIRM g s w) = .irm g := by
  cases g <;> cases w <;> decide +revert

theorem dispatch_leadOp7 (m : AccMnemonic) (w : Width) : dispatch (leadOp7 (iaOpcode m) w) = .ia m := by
  cases m <;> cases w <;> rfl

/-! ### The flags and the selector of a leading byte (R54 to R57) -/

theorem getLsbD_append_ofBool_zero {n : Nat} (x : BitVec n) (b : Bool) : (x ++ BitVec.ofBool b).getLsbD 0 = b := by
  simp [BitVec.getElem_append]

theorem getLsbD_append_ofBool_succ {n : Nat} (x : BitVec n) (b : Bool) (k : Nat) :
    (x ++ BitVec.ofBool b).getLsbD (k + 1) = x.getLsbD k := by
  simp [BitVec.getLsbD_append]

@[simp] theorem byteBit_one_leadRM (op6 : BitVec 6) (d : Bool) (w : Width) : byteBit (leadRM op6 d w) 1 = d :=
  (getLsbD_append_ofBool_succ _ _ 0).trans (getLsbD_append_ofBool_zero op6 d)

@[simp] theorem byteBit_zero_leadRM (op6 : BitVec 6) (d : Bool) (w : Width) : byteBit (leadRM op6 d w) 0 = w.bit :=
  getLsbD_append_ofBool_zero _ w.bit

@[simp] theorem byteBit_three_leadIR (w : Width) (reg : Sel) : byteBit (leadIR w reg) 3 = w.bit := by
  cases w <;> decide +revert

@[simp] theorem regSel_leadIR (w : Width) (reg : Sel) : (leadIR w reg).extractLsb' 0 3 = reg :=
  extract_low_append _ reg

@[simp] theorem byteBit_zero_leadOp7 (op7 : BitVec 7) (w : Width) : byteBit (leadOp7 op7 w) 0 = w.bit :=
  getLsbD_append_ofBool_zero op7 w.bit

@[simp] theorem byteBit_zero_leadIRM (g : ImmGroup) (s : Bool) (w : Width) : byteBit (leadIRM g s w) 0 = w.bit := by
  cases g with
  | arith => exact byteBit_zero_leadRM 0b100000#6 s w
  | mov => exact byteBit_zero_leadOp7 _ w

theorem signFlag_leadIRM_arith (s : Bool) (w : Width) : signFlag .arith (leadIRM .arith s w) = s :=
  byteBit_one_leadRM 0b100000#6 s w

theorem signFlag_leadIRM_mov (s : Bool) (w : Width) : signFlag .mov (leadIRM .mov s w) = false := rfl

/-! ### Each format decodes from its own encoding -/

theorem decode_encode_rmInstr (p : Params) (m : Mnemonic) (d : Bool) (w : Width) (reg : Sel) {rm : RmOperand}
    (hw : rm.wf = true) (rest : List Byte) :
    decode p (encode (rmInstr m d w reg rm) ++ rest) = .ok (rmInstr m d w reg rm) rest := by
  simp [decode, dispatch_leadRM, decodeRM_eq_ok.mpr ⟨rm, reg, hw, rfl, rfl⟩]

theorem decode_encode_movIR (p : Params) {w : Width} (reg : Sel) {imm : ImmData} (hf : imm.fitsWidth w = true)
    (rest : List Byte) : decode p (encode (.movIR w reg imm) ++ rest) = .ok (.movIR w reg imm) rest := by
  have hread : imm.fitsWidth (.ofBit (byteBit (leadIR w reg) 3)) = true := by simpa using hf
  simp [decode, encode, dispatch_leadIR, decodeIR_eq_ok.mpr ⟨imm, hread, rfl, rfl⟩]

theorem decode_encode_iaInstr (p : Params) (m : AccMnemonic) {w : Width} {imm : ImmData}
    (hf : imm.fitsWidth w = true) (rest : List Byte) :
    decode p (encode (iaInstr m w imm) ++ rest) = .ok (iaInstr m w imm) rest := by
  have hread : imm.fitsWidth (.ofBit (byteBit (leadOp7 (iaOpcode m) w) 0)) = true := by simpa using hf
  simp [decode, dispatch_leadOp7, decodeIA_eq_ok.mpr ⟨imm, hread, rfl, rfl⟩]

/-- The IRM format, for a selector that does not fail and the sign flag its group gives back (R62, R91). -/
theorem decode_encode_irmInstr {p : Params} {g : ImmGroup} {f : Sel} {m : Mnemonic} (hm : secondary g f = some m)
    {s : Bool} {w : Width} (hs : signFlag g (leadIRM g s w) = s) {rm : RmOperand} {imm : ImmData}
    (hwf : (rm.wf && imm.fitsIRM p s w) = true) (rest : List Byte) :
    decode p (encode (irmInstr m s w rm imm) ++ rest) = .ok (irmInstr m s w rm imm) rest := by
  obtain ⟨hw, hf⟩ := Bool.and_eq_true_iff.mp hwf
  have hread : imm.fitsIRM p (signFlag g (leadIRM g s w)) (.ofBit (byteBit (leadIRM g s w) 0)) = true := by
    simpa [hs] using hf
  have henc := encode_irmInstr hm (leadIRM g s w) w rm imm
  rw [hs] at henc
  simp [decode, henc, dispatch_leadIRM, decodeIRM_eq_ok.mpr ⟨f, m, rm, imm, hm, hw, hread, rfl, rfl⟩, hs]

/-- Settles O24, by the format of each instruction: the RM, IR, IRM and IA formats each decode from their encoding. -/
theorem decodeOfEncode : Obligations.DecodeOfEncode := by
  unfold Obligations.DecodeOfEncode
  intro p i rest h
  cases i with
  | movRM d w reg rm => exact decode_encode_rmInstr p .mov d w reg h rest
  | addRM d w reg rm => exact decode_encode_rmInstr p .add d w reg h rest
  | subRM d w reg rm => exact decode_encode_rmInstr p .sub d w reg h rest
  | cmpRM d w reg rm => exact decode_encode_rmInstr p .cmp d w reg h rest
  | movIR w reg imm => exact decode_encode_movIR p reg h rest
  | movIRM w rm imm =>
    exact decode_encode_irmInstr (m := .mov) (f := 0b000#3) rfl (signFlag_leadIRM_mov false w) h rest
  | addIRM s w rm imm =>
    exact decode_encode_irmInstr (m := .add) (f := 0b000#3) rfl (signFlag_leadIRM_arith s w) h rest
  | subIRM s w rm imm =>
    exact decode_encode_irmInstr (m := .sub) (f := 0b101#3) rfl (signFlag_leadIRM_arith s w) h rest
  | cmpIRM s w rm imm =>
    exact decode_encode_irmInstr (m := .cmp) (f := 0b111#3) rfl (signFlag_leadIRM_arith s w) h rest
  | addIA w imm => exact decode_encode_iaInstr p .add h rest
  | subIA w imm => exact decode_encode_iaInstr p .sub h rest
  | cmpIA w imm => exact decode_encode_iaInstr p .cmp h rest

/-- Settles O25: the inversion of the decoder. -/
theorem encodeOfDecode : Obligations.EncodeOfDecode := by
  unfold Obligations.EncodeOfDecode
  intro p bytes rest i h
  exact wf_and_bytes_of_decode h

end Sys2Proof
end

