-- ==== Sys2Proof/Proofs/EncodedLength.lean ====
section
/-! SUPPORT. The bytes at the cursor as the decoder is handed them, and R64's length read off them: it is the length of
the instruction that decodes there. -/

namespace Sys2Proof

/-! ### Lengths of the decoders' constructors (R64) -/

@[simp] theorem length_rmInstr (m : Mnemonic) (d : Bool) (w : Width) (reg : Sel) (rm : RmOperand) :
    (rmInstr m d w reg rm).length = 2 + rm.dispLen := by cases m <;> rfl

@[simp] theorem length_irmInstr (m : Mnemonic) (s : Bool) (w : Width) (rm : RmOperand) (imm : ImmData) :
    (irmInstr m s w rm imm).length = 2 + rm.dispLen + imm.length := by cases m <;> rfl

@[simp] theorem length_iaInstr (m : AccMnemonic) (w : Width) (imm : ImmData) :
    (iaInstr m w imm).length = 1 + imm.length := by cases m <;> rfl

end Sys2Proof

namespace Sys2Proof.Machine

/-! ### The bytes handed to the decoder -/

/-- A byte handed to the decoder is the input's byte at its index (R120). -/
theorem State.read_of_fetch_getElem? {s : State} {k : Nat} {b : Byte} (h : s.fetch[k]? = some b) :
    s.input.read (s.cursor + k) = b := by
  rw [State.fetch_eq_take_unread, List.getElem?_take, State.unread, List.getElem?_map] at h
  split at h
  · obtain ⟨j, hj, rfl⟩ := Option.map_eq_some_iff.mp h
    obtain ⟨-, rfl⟩ := List.getElem?_eq_some_iff.mp hj
    simp
  · cases h

theorem State.read_cursor_of_fetch {s : State} {b0 : Byte} {tail : List Byte} (h : s.fetch = b0 :: tail) :
    s.input.read s.cursor = b0 :=
  State.read_of_fetch_getElem? (k := 0) (by rw [h]; rfl)

theorem State.read_cursor_add_one_of_fetch {s : State} {b0 b1 : Byte} {tail : List Byte}
    (h : s.fetch = b0 :: b1 :: tail) : s.input.read (s.cursor + 1) = b1 :=
  State.read_of_fetch_getElem? (k := 1) (by rw [h]; rfl)

/-- Where two bytes remain, they are the first two handed to the decoder. -/
theorem State.fetch_eq_cons_cons {s : State} (h : s.cursor + 2 ≤ s.inputLength) :
    ∃ tail, s.fetch = s.input.read s.cursor :: s.input.read (s.cursor + 1) :: tail := by
  have hlen : 2 ≤ s.fetch.length := by
    simp only [State.fetch_eq_take_unread, List.length_take, State.unread_length, maxInstrLength]
    omega
  match hf : s.fetch, hlen with
  | b0 :: b1 :: tail, _ =>
    rw [State.read_cursor_of_fetch hf, State.read_cursor_add_one_of_fetch hf]
    exact ⟨tail, rfl⟩

/-! ### R64's length, by the format of the leading byte -/

section

variable {s : State} {c : Nat}

theorem fullLength_of_unrecognized (h : dispatch (s.input.read c) = .unrecognized) :
    Pseudocode.fullLength s c = 0 := by
  simp [Pseudocode.fullLength, h]

theorem fullLength_of_rm {m : Mnemonic} (h : dispatch (s.input.read c) = .rm m) :
    Pseudocode.fullLength s c =
      2 + dispLen (Mode.ofField (modField (s.input.read (c + 1)))) (rmField (s.input.read (c + 1))) := by
  simp [Pseudocode.fullLength, h]

theorem fullLength_of_ir (h : dispatch (s.input.read c) = .ir) :
    Pseudocode.fullLength s c = 1 + immLenW (.ofBit (byteBit (s.input.read c) 3)) := by
  cases hw : byteBit (s.input.read c) 3 <;> simp [Pseudocode.fullLength, h, hw, Width.ofBit, immLenW]

theorem fullLength_of_irm {g : ImmGroup} (h : dispatch (s.input.read c) = .irm g) :
    Pseudocode.fullLength s c =
      2 + dispLen (Mode.ofField (modField (s.input.read (c + 1)))) (rmField (s.input.read (c + 1))) +
        immLenIRM s.params (signFlag g (s.input.read c)) (.ofBit (byteBit (s.input.read c) 0)) := by
  cases g <;> cases hw : byteBit (s.input.read c) 0 <;>
    simp [Pseudocode.fullLength, h, hw, Width.ofBit, immLenIRM, signFlag]

theorem fullLength_of_ia {m : AccMnemonic} (h : dispatch (s.input.read c) = .ia m) :
    Pseudocode.fullLength s c = 1 + immLenW (.ofBit (byteBit (s.input.read c) 0)) := by
  cases hw : byteBit (s.input.read c) 0 <;> simp [Pseudocode.fullLength, h, hw, Width.ofBit, immLenW]

end

/-- A two-byte header with two displacement bytes leaves the longest IRM instruction to its immediate (R74). -/
theorem four_add_immLenIRM_le (p : Params) (s : Bool) (w : Width) :
    4 + immLenIRM p s w ≤ if p.immRmWideData then 6 else 5 := by
  cases hwide : p.immRmWideData with
  | false => simp [immLenIRM, hwide]
  | true => rcases immLenIRM_cases p s w with h | h <;> simp [h]

/-- R64's length is at most five bytes, or six where a build reads two data bytes of an immediate to r/m. -/
theorem fullLength_le (s : State) (c : Nat) :
    Pseudocode.fullLength s c ≤ if s.params.immRmWideData then 6 else 5 := by
  have hdisp := dispLen_le (Mode.ofField (modField (s.input.read (c + 1)))) (rmField (s.input.read (c + 1)))
  cases hd : dispatch (s.input.read c) with
  | unrecognized =>
    rw [fullLength_of_unrecognized hd]
    omega
  | rm m =>
    rw [fullLength_of_rm hd]
    split <;> omega
  | ir =>
    have himm := immLenW_cases (.ofBit (byteBit (s.input.read c) 3))
    rw [fullLength_of_ir hd]
    split <;> omega
  | irm g =>
    rw [fullLength_of_irm hd]
    exact le_trans (Nat.add_le_add_right (by omega) _) (four_add_immLenIRM_le _ _ _)
  | ia m =>
    have himm := immLenW_cases (.ofBit (byteBit (s.input.read c) 0))
    rw [fullLength_of_ia hd]
    split <;> omega

/-- The instruction that decodes at the cursor has the length R64 gives from its first two bytes, by its format. -/
theorem length_eq_fullLength_of_decode {s : State} {i : Instr} {rest : List Byte}
    (h : decode s.params s.fetch = .ok i rest) : i.length = Pseudocode.fullLength s s.cursor := by
  match hf : s.fetch with
  | [] =>
    rw [hf] at h
    cases h
  | b0 :: tail =>
    have hb0 := State.read_cursor_of_fetch hf
    rw [hf] at h
    simp only [decode] at h
    split at h
    · cases h
    · next m hd =>
      obtain ⟨rm, reg, hw, rfl, rfl⟩ := decodeRM_eq_ok.mp h
      have hb1 := State.read_cursor_add_one_of_fetch hf
      rw [fullLength_of_rm (by rw [hb0, hd]), hb1]
      simp [RmOperand.dispLen_eq hw]
    · next hd =>
      obtain ⟨imm, hi, rfl, rfl⟩ := decodeIR_eq_ok.mp h
      rw [fullLength_of_ir (by rw [hb0, hd]), hb0, ← ImmData.fitsWidth_iff.mp hi]
      rfl
    · next g hd =>
      obtain ⟨f, m, rm, imm, -, hw, hi, rfl, rfl⟩ := decodeIRM_eq_ok.mp h
      have hb1 := State.read_cursor_add_one_of_fetch hf
      rw [fullLength_of_irm (by rw [hb0, hd]), hb0, hb1, ← ImmData.fitsIRM_iff.mp hi]
      simp [RmOperand.dispLen_eq hw]
    · next m hd =>
      obtain ⟨imm, hi, rfl, rfl⟩ := decodeIA_eq_ok.mp h
      rw [fullLength_of_ia (by rw [hb0, hd]), hb0, ← ImmData.fitsWidth_iff.mp hi]
      simp

/-- Settles O18: R64's length is that of the decoded instruction, whose encoding is what was decoded. -/
theorem consumptionIsTheEncodedLength : Obligations.ConsumptionIsTheEncodedLength := by
  unfold Obligations.ConsumptionIsTheEncodedLength
  intro s i rest _ h
  have hlen := length_eq_fullLength_of_decode h
  obtain ⟨-, hbytes⟩ := wf_and_bytes_of_decode h
  refine ⟨hlen, encode_length i, hbytes, two_le_length i, ?_⟩
  rw [hlen]
  exact fullLength_le s s.cursor

end Sys2Proof.Machine
end

