-- ==== Sys2Proof/Proofs/StepStops.lean ====
section
/-! SUPPORT. Where an enabled step stops: exactly where no encoding begins the unread bytes, and at a `fail` entry of
the secondary dispatch (R62, R132). -/

namespace Sys2Proof.Machine

/-- An encoding that begins the unread bytes begins those handed to the decoder, being no longer than six bytes. -/
theorem State.encode_begins_fetch_iff {s : State} {i : Instr} : encode i <+: s.fetch ↔ encode i <+: s.unread := by
  rw [State.fetch_eq_take_unread, List.prefix_take_iff, encode_length]
  exact and_iff_left (length_le_max i)

/-- A well-formed instruction decodes at the cursor exactly where its encoding begins the unread bytes. -/
theorem decode_fetch_iff_encode_begins_unread {s : State} {i : Instr} :
    (∃ rest, decode s.params s.fetch = .ok i rest) ↔ i.wf s.params = true ∧ encode i <+: s.unread := by
  rw [← State.encode_begins_fetch_iff]
  constructor
  · rintro ⟨rest, hd⟩
    obtain ⟨hwf, hbytes⟩ := wf_and_bytes_of_decode hd
    exact ⟨hwf, rest, hbytes.symm⟩
  · rintro ⟨hwf, rest, hbytes⟩
    exact ⟨rest, by rw [← hbytes, decodeOfEncode s.params i rest hwf]⟩

/-- An enabled step stops exactly where the decoder rejects: a step on a decoded instruction leaves `run` RUNNING. -/
theorem step_stops_iff_no_decode {s : State} (hen : s.enabled) :
    (∃ r, step s = .next (s.stopWith r)) ↔ ∀ i rest, decode s.params s.fetch ≠ .ok i rest := by
  constructor
  · rintro ⟨r, hstop⟩ i rest hd
    rw [step_of_ok hen hd] at hstop
    have hrun := congrArg State.run (Host.Outcome.next.inj hstop)
    rw [State.stopWith_run] at hrun
    exact Run.noConfusion (hen.1.symm.trans hrun)
  · intro hno
    cases hd : decode s.params s.fetch with
    | ok i rest => exact absurd hd (hno i rest)
    | reject r => exact ⟨r, step_of_reject hen hd⟩

/-- Settles O23: what decodes at the cursor are the well-formed instructions whose encoding begins the unread bytes. -/
theorem stepStopsExactlyWhenNoInstructionFits : Obligations.StepStopsExactlyWhenNoInstructionFits := by
  unfold Obligations.StepStopsExactlyWhenNoInstructionFits
  intro s hen
  rw [step_stops_iff_no_decode hen]
  refine forall_congr' fun i => ?_
  rw [← not_exists, decode_fetch_iff_encode_begins_unread, not_and]

/-! ### The dispatch tables (R60, R62) -/

/-- The decoder on a leading byte of an IRM group and a selector with no mnemonic (R92, R93). -/
theorem decode_of_unsupported_selector (p : Params) {g : ImmGroup} {b0 b1 : Byte} (hd : dispatch b0 = .irm g)
    (hsel : secondary g (regField b1) = none) (tail : List Byte) :
    decode p (b0 :: b1 :: tail) = .reject (.decoderFailure (some (regField b1))) := by
  simp [decode, hd, decodeIRM, hsel]

/-- A `fail` entry of the secondary dispatch stops an enabled step before whose end two bytes remain (R132). -/
theorem step_of_unsupported_selector {s : State} {g : ImmGroup} (hen : s.enabled)
    (hremain : s.cursor + 2 ≤ s.inputLength) (hd : dispatch (s.input.read s.cursor) = .irm g)
    (hsel : secondary g (regField (s.input.read (s.cursor + 1))) = none) :
    step s = .next (s.stopWith (.decoderFailure (some (regField (s.input.read (s.cursor + 1)))))) := by
  obtain ⟨tail, hf⟩ := State.fetch_eq_cons_cons hremain
  refine step_of_reject hen ?_
  rw [hf, decode_of_unsupported_selector s.params hd hsel]

/-- Settles O50: the two finite tables entry by entry, and the stop at a `fail` entry. -/
theorem dispatchTablesHoldTheirContents : Obligations.DispatchTablesHoldTheirContents := by
  unfold Obligations.DispatchTablesHoldTheirContents
  refine ⟨by decide, by decide, by decide, ?_⟩
  intro s g hen hremain hd hsel
  exact step_of_unsupported_selector hen hremain hd hsel

end Sys2Proof.Machine
end

