-- ==== Sys2Proof/Proofs/LineCharacters.lean ====
section
/-! SUPPORT. The characters of an instruction line (R68, R106). A line joins tokens, which neither begin nor end with a
space, by text over the grammar's alphabet; so does an operand that has more than one part. -/

namespace Sys2Proof.Machine

open Sys2Proof.Rules

/-- Every character is one of the grammar's. -/
def overAlphabet (t : String) : Bool := t.toList.all lineAlphabet.contains

/-- A nonempty text over the alphabet that neither begins nor ends with a space. -/
def isToken (t : String) : Bool :=
  overAlphabet t && t.toList.head?.any (· ≠ ' ') && t.toList.getLast?.any (· ≠ ' ')

theorem overAlphabet_iff {t : String} : overAlphabet t = true ↔ ∀ c ∈ t.toList, c ∈ lineAlphabet := by
  simp only [overAlphabet, List.all_eq_true, List.contains_iff_mem]

@[simp] theorem overAlphabet_append (a b : String) : overAlphabet (a ++ b) = (overAlphabet a && overAlphabet b) := by
  simp only [overAlphabet, String.toList_append, List.all_append]

theorem isToken_iff {t : String} : isToken t = true ↔ overAlphabet t = true ∧
    (∃ c, t.toList.head? = some c ∧ c ≠ ' ') ∧ ∃ c, t.toList.getLast? = some c ∧ c ≠ ' ' := by
  simp only [isToken, Bool.and_eq_true, Option.any_eq_true, decide_eq_true_eq, and_assoc]

theorem overAlphabet_of_isToken {t : String} (h : isToken t = true) : overAlphabet t = true := (isToken_iff.mp h).1

/-- Text between two tokens joins them to one token. -/
theorem isToken_join {a b c : String} (ha : isToken a = true) (hb : overAlphabet b = true) (hc : isToken c = true) :
    isToken (a ++ b ++ c) = true := by
  obtain ⟨hoa, ⟨x, hx, hxne⟩, -⟩ := isToken_iff.mp ha
  obtain ⟨hoc, -, ⟨y, hy, hyne⟩⟩ := isToken_iff.mp hc
  refine isToken_iff.mpr ⟨by simp [hoa, hb, hoc], ⟨x, ?_, hxne⟩, ⟨y, ?_, hyne⟩⟩
  · simp [List.head?_append, hx]
  · simp [List.getLast?_append, hy]

/-! ### Numbers (R115) -/

theorem mem_lineAlphabet_of_isDigit {c : Char} (h : c.isDigit = true) : c ∈ lineAlphabet := by
  have hdigits : ∀ n ∈ List.range' '0'.toNat 10, lineAlphabet.contains (Char.ofNat n) = true := by decide
  obtain ⟨hlo, hhi⟩ := Char.isDigit_iff_toNat.mp h
  have hc := hdigits c.toNat (List.mem_range'_1.mpr ⟨hlo, Nat.lt_succ_of_le hhi⟩)
  rwa [Char.ofNat_toNat, List.contains_iff_mem] at hc

theorem ne_space_of_isDigit {c : Char} (h : c.isDigit = true) : c ≠ ' ' := by
  rintro rfl
  cases h

/-- A run of digits is a token. -/
theorem isToken_of_digits {ds : List Char} (hne : ds ≠ []) (h : ∀ c ∈ ds, c.isDigit = true) :
    isToken (String.ofList ds) = true := by
  have hends : ∀ c ∈ ds, c ≠ ' ' := fun c hc => ne_space_of_isDigit (h c hc)
  refine isToken_iff.mpr ⟨overAlphabet_iff.mpr ?_, ⟨ds.head hne, ?_, hends _ (List.head_mem hne)⟩,
    ⟨ds.getLast hne, ?_, hends _ (List.getLast_mem hne)⟩⟩
  · simpa using fun c hc => mem_lineAlphabet_of_isDigit (h c hc)
  · simp [List.head?_eq_some_head hne]
  · simp [List.getLast?_eq_some_getLast hne]

theorem isToken_toDigits (n : Nat) : isToken (String.ofList (Nat.toDigits 10 n)) = true :=
  isToken_of_digits Nat.toDigits_ne_nil fun _ hc => Nat.isDigit_of_mem_toDigits (by decide) (by decide) hc

theorem isToken_dec (x : Int) : isToken (dec x) = true := by
  simp only [dec]
  split
  · exact isToken_join (a := "-") (b := "") (by decide) (by decide) (isToken_toDigits _)
  · exact isToken_toDigits _

/-! ### Operands (R108 to R112) -/

theorem isToken_regName (w : Width) (sel : Sel) : isToken (regName w sel) = true := by
  cases w <;> decide +revert

theorem overAlphabet_eaExpr (rm : Sel) : overAlphabet (eaExpr rm) = true := by
  decide +revert

theorem isToken_sizeText (w : Width) : isToken (sizeText w) = true := by
  cases w <;> decide

theorem isToken_directQualifier (q : DirectAddrQualifier) (w : Width) : isToken (directQualifier q w) = true := by
  cases q with
  | alwaysWord => exact isToken_sizeText .word
  | byWidth => exact isToken_sizeText w

theorem overAlphabet_dispText (disp : Word) : overAlphabet (dispText disp) = true := by
  simp only [dispText]
  split
  · decide
  · rw [overAlphabet_append, overAlphabet_of_isToken (isToken_dec _)]
    decide

/-- A qualifier and a bracketed text over the alphabet. -/
theorem isToken_bracketed {qualifier text : String} (hq : isToken qualifier = true) (ht : overAlphabet text = true) :
    isToken (qualifier ++ " [" ++ text ++ "]") = true := by
  have hopen : overAlphabet (" [" ++ text) = true := by
    rw [overAlphabet_append, ht]
    decide
  rw [String.append_assoc (s₁ := qualifier)]
  exact isToken_join hq hopen (by decide)

theorem isToken_renderOp_reg (q : DirectAddrQualifier) (w w' : Width) (sel : Sel) :
    isToken (renderOp q w (.reg (regName w' sel))) = true := isToken_regName w' sel

theorem isToken_renderOp_imm (q : DirectAddrQualifier) (w : Width) (v : Word) :
    isToken (renderOp q w (.imm v)) = true := isToken_dec _

theorem isToken_renderOp_direct (q : DirectAddrQualifier) (w : Width) (a : Word) :
    isToken (renderOp q w (.direct a)) = true :=
  isToken_bracketed (isToken_directQualifier q w) (overAlphabet_of_isToken (isToken_dec _))

theorem isToken_renderOp_mem (q : DirectAddrQualifier) (w : Width) (rm : Sel) (disp : Word) :
    isToken (renderOp q w (.mem (eaExpr rm) disp)) = true := by
  have htext : overAlphabet (eaExpr rm ++ dispText disp) = true := by
    rw [overAlphabet_append, overAlphabet_eaExpr, overAlphabet_dispText]
    rfl
  have hbracketed := isToken_bracketed (isToken_sizeText w) htext
  rwa [← String.append_assoc] at hbracketed

/-- The resolved rm operand renders to a token, in each of the four modes (R76). -/
theorem isToken_renderOp_rmOperand (q : DirectAddrQualifier) (w w' : Width) (rm : RmOperand) :
    isToken (renderOp q w (rmOperand w' rm)) = true := by
  simp only [rmOperand, resolveRm]
  split
  · exact isToken_renderOp_reg q w w' rm.sel
  · split
    · exact isToken_renderOp_direct q w _
    · exact isToken_renderOp_mem q w rm.sel _
  · exact isToken_renderOp_mem q w rm.sel _
  · exact isToken_renderOp_mem q w rm.sel _

/-! ### Lines (R106) -/

/-- A line whose two operands render to tokens is one token. -/
theorem isToken_renderLine {q : DirectAddrQualifier} {r : Record} (hdst : isToken (renderOp q r.w r.dst) = true)
    (hsrc : isToken (renderOp q r.w r.src) = true) : isToken (renderLine q r) = true := by
  have hmnem : isToken (mnemText r.mnem) = true := by cases r.mnem <;> decide
  exact isToken_join (isToken_join hmnem (by decide) hdst) (by decide) hsrc

theorem isToken_renderLine_recordRM (q : DirectAddrQualifier) (m : Mnemonic) (d : Bool) (w : Width) (reg : Sel)
    (rm : RmOperand) : isToken (renderLine q (recordRM m d w reg rm)) = true := by
  have hreg := isToken_renderOp_reg q w w reg
  have hrm := isToken_renderOp_rmOperand q w w rm
  cases d with
  | false => exact isToken_renderLine hrm hreg
  | true => exact isToken_renderLine hreg hrm

theorem isToken_renderLine_recordIR (q : DirectAddrQualifier) (w : Width) (reg : Sel) (imm : ImmData) :
    isToken (renderLine q (recordIR w reg imm)) = true :=
  isToken_renderLine (isToken_renderOp_reg q w w reg) (isToken_renderOp_imm q w _)

theorem isToken_renderLine_recordIRM (q : DirectAddrQualifier) (m : Mnemonic) (s : Bool) (w : Width) (sel : Sel)
    (rm : RmOperand) (imm : ImmData) : isToken (renderLine q (recordIRM m s w sel rm imm)) = true :=
  isToken_renderLine (isToken_renderOp_rmOperand q w w rm) (isToken_renderOp_imm q w _)

theorem isToken_renderLine_recordIA (q : DirectAddrQualifier) (m : Mnemonic) (w : Width) (imm : ImmData) :
    isToken (renderLine q (recordIA m w imm)) = true :=
  isToken_renderLine (isToken_renderOp_reg q w w 0b000#3) (isToken_renderOp_imm q w _)

/-- Every instruction's line is a token, by the format of its record. -/
theorem isToken_lineOf (p : Params) (i : Instr) : isToken (lineOf p i) = true := by
  cases i with
  | movRM d w reg rm => exact isToken_renderLine_recordRM _ .mov d w reg rm
  | addRM d w reg rm => exact isToken_renderLine_recordRM _ .add d w reg rm
  | subRM d w reg rm => exact isToken_renderLine_recordRM _ .sub d w reg rm
  | cmpRM d w reg rm => exact isToken_renderLine_recordRM _ .cmp d w reg rm
  | movIR w reg imm => exact isToken_renderLine_recordIR _ w reg imm
  | movIRM w rm imm => exact isToken_renderLine_recordIRM _ .mov false w 0b000#3 rm imm
  | addIRM s w rm imm => exact isToken_renderLine_recordIRM _ .add s w 0b000#3 rm imm
  | subIRM s w rm imm => exact isToken_renderLine_recordIRM _ .sub s w 0b101#3 rm imm
  | cmpIRM s w rm imm => exact isToken_renderLine_recordIRM _ .cmp s w 0b111#3 rm imm
  | addIA w imm => exact isToken_renderLine_recordIA _ .add w imm
  | subIA w imm => exact isToken_renderLine_recordIA _ .sub w imm
  | cmpIA w imm => exact isToken_renderLine_recordIA _ .cmp w imm

/-- Settles O56: a token is over the alphabet and has no space at either end. -/
theorem linesUseTheGrammarsCharacters : Obligations.LinesUseTheGrammarsCharacters := by
  unfold Obligations.LinesUseTheGrammarsCharacters
  intro p i
  obtain ⟨hover, ⟨x, hx, hxne⟩, ⟨y, hy, hyne⟩⟩ := isToken_iff.mp (isToken_lineOf p i)
  exact ⟨overAlphabet_iff.mp hover, by simpa [hx] using hxne, by simpa [hy] using hyne⟩

end Sys2Proof.Machine
end

