-- ==== Sys2Proof/Proofs/NamingTables.lean ====
section
/-! SUPPORT. The naming and expression tables, read in selector order (R69, R70, R71). -/

namespace Sys2Proof.Machine

/-- The eight selectors in order read the rows of a table in order. -/
theorem map_getElem_sel {α : Type} (table : Vector α 8) :
    [0, 1, 2, 3, 4, 5, 6, 7].map (fun n => table[(BitVec.ofNat 3 n).toNat]'(BitVec.isLt _)) = table.toList := by
  change (List.range 8).map _ = _
  refine List.ext_getElem (by simp) fun k hk _ => ?_
  have hsel : (BitVec.ofNat 3 k).toNat = k := Nat.mod_eq_of_lt (by simpa using hk)
  simp only [List.getElem_map, List.getElem_range, hsel, Vector.getElem_toList]

theorem map_regName (w : Width) :
    [0, 1, 2, 3, 4, 5, 6, 7].map (fun n => regName w (BitVec.ofNat 3 n)) = (regNames w).toList :=
  map_getElem_sel (regNames w)

theorem map_eaExpr : [0, 1, 2, 3, 4, 5, 6, 7].map (fun n => eaExpr (BitVec.ofNat 3 n)) = eaExprs.toList :=
  map_getElem_sel eaExprs

/-- Settles O51: each table read in selector order is its row, and the accumulator is entry 000 of its width's row. -/
theorem namingTablesHoldTheirContents : Obligations.NamingTablesHoldTheirContents := by
  unfold Obligations.NamingTablesHoldTheirContents
  exact ⟨map_regName .byte, map_regName .word, map_eaExpr, rfl, rfl⟩

end Sys2Proof.Machine
end

