-- ==== Sys2Proof/Proofs/DisplacementRead.lean ====
section
/-! SUPPORT. The bytes behind a two-byte header at the cursor, and the displacement in them: where the decoder finds an
r/m operand, the spec's displacement reader over indices of `IN` finds the same value (R54, R56, R72). -/

namespace Sys2Proof

/-- The Displacement Reader answers an operand where the bytes its mode asks for exist (R75). -/
theorem exists_readRm_of_dispLen_le {mode : Mode} {rm : Sel} {bs : List Byte} (h : dispLen mode rm ≤ bs.length) :
    ∃ op rest, readRm mode rm bs = some (op, rest) := by
  cases hr : readRm mode rm bs with
  | none => exact absurd h (Nat.not_le.mpr (readRm_eq_none.mp hr))
  | some found => exact ⟨found.1, found.2, rfl⟩

end Sys2Proof

namespace Sys2Proof.Machine

/-! ### The bytes handed to the decoder -/

@[simp] theorem State.fetch_length (s : State) : s.fetch.length = min maxInstrLength (s.inputLength - s.cursor) := by
  simp [State.fetch_eq_take_unread]

/-- Behind two header bytes the decoder is handed what remains, up to the longest instruction (R64). -/
theorem State.length_tail_of_fetch {s : State} {b0 b1 : Byte} {tail : List Byte} (hf : s.fetch = b0 :: b1 :: tail) :
    tail.length + 2 = min maxInstrLength (s.inputLength - s.cursor) := by
  rw [← State.fetch_length, hf, List.length_cons, List.length_cons]

/-- Where one byte remains, it is all that is handed to the decoder. -/
theorem State.fetch_eq_singleton {s : State} (hlt : s.cursor < s.inputLength) (h : s.inputLength < s.cursor + 2) :
    s.fetch = [s.input.read s.cursor] := by
  have hlen : s.fetch.length = 1 := by
    simp only [State.fetch_length, maxInstrLength]
    omega
  obtain ⟨b0, hf⟩ := List.length_eq_one_iff.mp hlen
  rw [hf, State.read_cursor_of_fetch hf]

/-! ### The spec's displacement reader -/

/-- Two input bytes are read as the 16-bit field they hold, the lower byte first (R41). -/
theorem memRead2_eq {s : State} {p : Nat} {v : Word} (hlo : s.input.read p = lowByte v)
    (hhi : s.input.read (p + 1) = highByte v) : Pseudocode.memRead2 s p = v := by
  rw [Pseudocode.memRead2, hlo, hhi]
  exact leWord_low_high v

/-- The spec's displacement reader answers a well-formed operand's displacement where `IN` holds its bytes (R72). -/
theorem readDisp_of_dispBytes {s : State} {p : Nat} {op : RmOperand} (hw : op.wf = true)
    (hread : ∀ k b, op.dispBytes[k]? = some b → s.input.read (p + k) = b) :
    Pseudocode.readDisp s p op.mode op.sel = (dispValue op, op.dispLen) := by
  cases op with
  | reg _ => rfl
  | mem0 r =>
    have hr : r ≠ 0b110#3 := by simpa [RmOperand.wf] using hw
    simp [Pseudocode.readDisp, RmOperand.mode, RmOperand.sel, hr, dispValue, RmOperand.dispLen]
  | direct a =>
    have hv : Pseudocode.memRead2 s p = a := memRead2_eq (hread 0 _ rfl) (hread 1 _ rfl)
    simp [Pseudocode.readDisp, RmOperand.mode, RmOperand.sel, hv, dispValue, RmOperand.dispLen]
  | mem8 r d =>
    have hv : Pseudocode.memRead1 s p = d := hread 0 _ rfl
    simp [Pseudocode.readDisp, RmOperand.mode, hv, dispValue, RmOperand.dispLen]
  | mem16 r d =>
    have hv : Pseudocode.memRead2 s p = d := memRead2_eq (hread 0 _ rfl) (hread 1 _ rfl)
    simp [Pseudocode.readDisp, RmOperand.mode, hv, dispValue, RmOperand.dispLen]

/-- Behind a two-byte header at the cursor, the spec's displacement reader answers the displacement of the operand whose
bytes follow there. -/
theorem readDisp_of_fetch {s : State} {b0 b1 : Byte} {op : RmOperand} {rest : List Byte} (hw : op.wf = true)
    (hf : s.fetch = b0 :: b1 :: (op.dispBytes ++ rest)) :
    Pseudocode.readDisp s (s.cursor + 2) op.mode op.sel = (dispValue op, op.dispLen) := by
  refine readDisp_of_dispBytes hw fun k b hk => ?_
  obtain ⟨hlt, -⟩ := List.getElem?_eq_some_iff.mp hk
  have hfetch : s.fetch[k + 2]? = some b := by
    rw [hf, List.getElem?_cons_succ, List.getElem?_cons_succ, List.getElem?_append_left hlt, hk]
  rw [Nat.add_assoc, Nat.add_comm 2 k, State.read_of_fetch_getElem? hfetch]

end Sys2Proof.Machine
end

