-- ==== Sys2Proof/Proofs/RegRm.lean ====
section
/-! SUPPORT. The register/memory ↔ register family (41_reg_rm.md): the RM format decodes or is truncated by which of its
bytes remain, and a step follows. One proof for every mnemonic; mov, add, sub and cmp are its instances. -/

namespace Sys2Proof

/-- A leading byte with the six opcode bits of an RM instruction dispatches to its mnemonic (R60). -/
theorem dispatch_of_rmOpcode {m : Mnemonic} {b0 : Byte} (h : b0.extractLsb' 2 6 = rmOpcode m) :
    dispatch b0 = .rm m := by
  cases m <;> decide +revert

/-! ### The decoder on a leading byte of the RM format -/

section

variable {m : Mnemonic} {b0 b1 : Byte} {tail : List Byte}

/-- The RM format decodes where the displacement its second byte asks for exists (R81). -/
theorem decode_rm_of_dispLen_le (p : Params) (hd : dispatch b0 = .rm m)
    (h : dispLen (Mode.ofField (modField b1)) (rmField b1) ≤ tail.length) :
    ∃ op rest, op.wf = true ∧ op.mode = Mode.ofField (modField b1) ∧ op.sel = rmField b1 ∧
      tail = op.dispBytes ++ rest ∧ decode p (b0 :: b1 :: tail) =
        .ok (rmInstr m (byteBit b0 1) (.ofBit (byteBit b0 0)) (regField b1) op) rest := by
  obtain ⟨op, rest, hr⟩ := exists_readRm_of_dispLen_le h
  obtain ⟨hw, hmode, hsel, htail⟩ := readRm_eq_some.mp hr
  exact ⟨op, rest, hw, hmode, hsel, htail, by simp [decode, hd, decodeRM, hr]⟩

/-- The RM format is truncated where the displacement its second byte asks for does not exist (R82). -/
theorem decode_rm_of_lt_dispLen (p : Params) (hd : dispatch b0 = .rm m)
    (h : tail.length < dispLen (Mode.ofField (modField b1)) (rmField b1)) :
    decode p (b0 :: b1 :: tail) =
      .reject (.truncated (2 + dispLen (Mode.ofField (modField b1)) (rmField b1)) (2 + tail.length)) := by
  simp [decode, hd, decodeRM, readRm_eq_none.mpr h]

/-- The RM format is truncated where its second byte does not exist (R82). -/
theorem decode_rm_singleton (p : Params) (hd : dispatch b0 = .rm m) :
    decode p [b0] = .reject (.truncated 2 1) := by
  simp [decode, hd, decodeRM]

end

end Sys2Proof

namespace Sys2Proof.Machine

open Sys2Proof.Rules

/-! ### The RM instructions as terms -/

@[simp] theorem recordOf_rmInstr (m : Mnemonic) (d : Bool) (w : Width) (reg : Sel) (rm : RmOperand) :
    recordOf (rmInstr m d w reg rm) = recordRM m d w reg rm := by cases m <;> rfl

/-- The line of an RM instruction, its operands placed by `d` (R77, R78, R106). -/
theorem lineOf_rmInstr (p : Params) (m : Mnemonic) (d : Bool) (w : Width) (reg : Sel) (rm : RmOperand) :
    lineOf p (rmInstr m d w reg rm) =
      if d then lineText p w (mnemText m) (.reg (regName w reg)) (resolveRm rm.mode rm.sel w (dispValue rm))
      else lineText p w (mnemText m) (resolveRm rm.mode rm.sel w (dispValue rm)) (.reg (regName w reg)) := by
  rw [lineOf, recordOf_rmInstr]
  cases d <;> rfl

theorem exec_rmInstr (m : Mnemonic) (d : Bool) (w : Width) (reg : Sel) (rm : RmOperand) (s : State) :
    exec (rmInstr m d w reg rm) s = .next (regRmResult (mnemText m) d w reg rm s) := by
  rw [exec_eq, lineOf_rmInstr, length_rmInstr]
  rfl

/-- Settles O33: the four forms are the RM instructions of the four mnemonics. -/
theorem regRmInstructionsComplete : Obligations.RegRmInstructionsComplete := by
  unfold Obligations.RegRmInstructionsComplete
  intro d w reg rm s
  exact ⟨exec_rmInstr .mov d w reg rm s, exec_rmInstr .add d w reg rm s, exec_rmInstr .sub d w reg rm s,
    exec_rmInstr .cmp d w reg rm s⟩

/-! ### A step on a leading byte of the RM format -/

/-- A step runs the instruction that decodes at the cursor (R121). -/
theorem step_eq_exec_of_ok {s : State} (hen : s.enabled) {i : Instr} {rest : List Byte}
    (hd : decode s.params s.fetch = .ok i rest) : step s = exec i s := by
  rw [step_of_ok hen hd, exec_eq]

/-- A truncation found at the cursor is the spec's stop with its two lengths (R121, R134). -/
theorem step_of_truncated {s : State} (hen : s.enabled) {need remain : Nat}
    (hd : decode s.params s.fetch = .reject (.truncated need remain)) :
    step s = .next (stopped s .truncated (.lengths need remain)) :=
  step_of_reject hen hd

section

variable {s : State} {m : Mnemonic} {b0 b1 : Byte} (hen : s.enabled) (hb0 : s.input.read s.cursor = b0)
  (hb1 : s.input.read (s.cursor + 1) = b1) (hd : dispatch b0 = .rm m)

include hen hb0 hb1 hd

/-- With all bytes of an RM instruction left, a step completes it on the fields of its two header bytes and the r/m
operand that the spec's displacement reader finds behind them (R81, R83 to R86). -/
theorem step_of_rm_complete
    (hfit : s.cursor + (2 + dispLen (Mode.ofField (modField b1)) (rmField b1)) ≤ s.inputLength) :
    ∃ op : RmOperand, op.wf = true ∧ op.mode = Mode.ofField (modField b1) ∧ op.sel = rmField b1 ∧
      Pseudocode.readDisp s (s.cursor + 2) op.mode op.sel = (dispValue op, op.dispLen) ∧
      step s = .next (regRmResult (mnemText m) (byteBit b0 1) (.ofBit (byteBit b0 0)) (regField b1) op s) := by
  obtain ⟨tail, hf⟩ := State.fetch_eq_cons_cons (s := s) (by omega)
  rw [hb0, hb1] at hf
  have hlen := State.length_tail_of_fetch hf
  have hmax := dispLen_le (Mode.ofField (modField b1)) (rmField b1)
  rw [maxInstrLength] at hlen
  have hdisp : dispLen (Mode.ofField (modField b1)) (rmField b1) ≤ tail.length := by omega
  obtain ⟨op, rest, hw, hmode, hsel, rfl, hdec⟩ := decode_rm_of_dispLen_le s.params hd hdisp
  refine ⟨op, hw, hmode, hsel, readDisp_of_fetch hw hf, ?_⟩
  rw [← hf] at hdec
  rw [step_eq_exec_of_ok hen hdec, exec_rmInstr]

/-- With a second byte but not all displacement bytes of an RM instruction left, a step stops (R82, R133). -/
theorem step_of_rm_disp_missing (htwo : s.cursor + 2 ≤ s.inputLength)
    (hshort : s.inputLength < s.cursor + (2 + dispLen (Mode.ofField (modField b1)) (rmField b1))) :
    step s = .next (stopped s .truncated
      (.lengths (2 + dispLen (Mode.ofField (modField b1)) (rmField b1)) (s.inputLength - s.cursor))) := by
  obtain ⟨tail, hf⟩ := State.fetch_eq_cons_cons htwo
  rw [hb0, hb1] at hf
  have hlen := State.length_tail_of_fetch hf
  have hmax := dispLen_le (Mode.ofField (modField b1)) (rmField b1)
  rw [maxInstrLength] at hlen
  have hremain : s.inputLength - s.cursor = 2 + tail.length := by omega
  rw [hremain]
  refine step_of_truncated hen ?_
  rw [hf, decode_rm_of_lt_dispLen s.params hd (by omega)]

omit hb1 in
/-- With no second byte of an RM instruction left, a step stops: two bytes are required (R82, R134). -/
theorem step_of_rm_second_missing (hone : s.inputLength < s.cursor + 2) :
    step s = .next (stopped s .truncated (.lengths 2 (s.inputLength - s.cursor))) := by
  have hlt : s.cursor < s.inputLength := hen.2
  have hremain : s.inputLength - s.cursor = 1 := by omega
  rw [hremain]
  refine step_of_truncated hen ?_
  rw [State.fetch_eq_singleton hlt hone, hb0, decode_rm_singleton s.params hd]

end

/-- Each RM opcode follows the rule of its mnemonic, by which of its bytes remain (R83 to R86). -/
theorem regRmRule_of_mnemonic (m : Mnemonic) : regRmRule (rmOpcode m) (mnemText m) := by
  unfold regRmRule
  intro s hen
  dsimp only
  intro hop
  have hd := dispatch_of_rmOpcode hop
  refine ⟨fun hfit => ?_, step_of_rm_disp_missing hen rfl rfl hd, step_of_rm_second_missing hen rfl hd⟩
  obtain ⟨op, hw, hmode, hsel, hdisp, hstep⟩ := step_of_rm_complete hen rfl rfl hd hfit
  have hlen := RmOperand.dispLen_eq hw
  rw [hmode, hsel] at hdisp hlen
  rw [hstep, regRmResult, hmode, hsel, hdisp, hlen]

/-- Settles O38: `100010` is the RM opcode of mov. -/
theorem movRegRmFollowsItsRule : Obligations.MovRegRmFollowsItsRule := regRmRule_of_mnemonic .mov

/-- Settles O39: `000000` is the RM opcode of add. -/
theorem addRegRmFollowsItsRule : Obligations.AddRegRmFollowsItsRule := regRmRule_of_mnemonic .add

/-- Settles O40: `001010` is the RM opcode of sub. -/
theorem subRegRmFollowsItsRule : Obligations.SubRegRmFollowsItsRule := regRmRule_of_mnemonic .sub

/-- Settles O41: `001110` is the RM opcode of cmp. -/
theorem cmpRegRmFollowsItsRule : Obligations.CmpRegRmFollowsItsRule := regRmRule_of_mnemonic .cmp

end Sys2Proof.Machine
end

