-- ==== Sys2Proof/Proofs/WrittenWords.lean ====
section
/-! SUPPORT. Words written out from the encodings of R54 to R57, as decoded (R87, R90, R98, R104). -/

namespace Sys2Proof

/-- Settles O26: each word is the encoding of the instruction it stands for, which therefore decodes from it. -/
theorem writtenWordsDecode : Obligations.WrittenWordsDecode := by
  unfold Obligations.WrittenWordsDecode
  exact ⟨decodeOfEncode _ (.movRM false .word 0b011#3 (.reg 0b000#3)) [] rfl,
    decodeOfEncode _ (.movRM false .word 0b001#3 (.mem16 0b100#3 0xFED4#16)) [] rfl,
    decodeOfEncode _ (.subRM true .word 0b011#3 (.reg 0b000#3)) [] rfl,
    decodeOfEncode _ (.movIR .word 0b010#3 (.two 0xF094#16)) [] rfl,
    decodeOfEncode _ (.subIRM true .word (.reg 0b001#3) (.one 0x08#8)) [] rfl,
    decodeOfEncode _ (.movIRM .byte (.mem0 0b011#3) (.one 0x07#8)) [] rfl,
    decodeOfEncode _ (.cmpIA .word (.two 0xFFFF#16)) [] rfl⟩

end Sys2Proof
end

