-- ==== Sys2Proof/Proofs/ImmediateRead.lean ====
section
/-! SUPPORT. The data bytes behind a one-byte header at the cursor (R55, R57): where they all remain the decoder is
handed an immediate, and the spec's immediate reader over indices of `IN` finds the same value (R73, R75). -/

namespace Sys2Proof.Machine

/-! ### The bytes handed to the decoder -/

/-- Where a byte remains, it is the first one handed to the decoder, before what else remains of the longest
instruction (R64). -/
theorem State.fetch_eq_cons {s : State} (hlt : s.cursor < s.inputLength) :
    ∃ tail, s.fetch = s.input.read s.cursor :: tail ∧
      1 + tail.length = min maxInstrLength (s.inputLength - s.cursor) := by
  have hlen := s.fetch_length
  match hf : s.fetch with
  | [] =>
    simp only [hf, List.length_nil, maxInstrLength] at hlen
    omega
  | b0 :: tail =>
    rw [hf, List.length_cons, Nat.add_comm] at hlen
    exact ⟨tail, by rw [State.read_cursor_of_fetch hf], hlen⟩

/-! ### The spec's immediate reader -/

/-- The spec's immediate reader answers the value of an immediate of its width where `IN` holds its bytes (R73). -/
theorem readImmW_of_bytes {s : State} {p : Nat} {w : Width} {imm : ImmData} (hfit : imm.fitsWidth w = true)
    (hread : ∀ k b, imm.bytes[k]? = some b → s.input.read (p + k) = b) :
    Pseudocode.readImmW s p w = (immValueW imm, immLenW w) := by
  cases imm with
  | one b =>
    obtain rfl : w = .byte := by simpa [ImmData.fitsWidth] using hfit
    have hv : Pseudocode.memRead1 s p = b := hread 0 _ rfl
    simp [Pseudocode.readImmW, hv, immValueW, immLenW]
  | two v =>
    obtain rfl : w = .word := by simpa [ImmData.fitsWidth] using hfit
    have hv : Pseudocode.memRead2 s p = v := memRead2_eq (hread 0 _ rfl) (hread 1 _ rfl)
    simp [Pseudocode.readImmW, hv, immValueW, immLenW]

/-- Where all data bytes behind a one-byte header remain, the decoder is handed an immediate of the header's width, and
the spec's immediate reader answers its value (R73). -/
theorem exists_imm_of_immLenW_le {s : State} {w : Width} (hfit : s.cursor + (1 + immLenW w) ≤ s.inputLength) :
    ∃ imm rest, imm.fitsWidth w = true ∧ s.fetch = s.input.read s.cursor :: (imm.bytes ++ rest) ∧
      Pseudocode.readImmW s (s.cursor + 1) w = (immValueW imm, immLenW w) := by
  obtain ⟨tail, hf, hlen⟩ := State.fetch_eq_cons (s := s) (by omega)
  have hcases := immLenW_cases w
  cases hr : readImm (immLenW w) tail with
  | none =>
    have hshort := (readImm_eq_none hcases).mp hr
    rw [maxInstrLength] at hlen
    omega
  | some found =>
    obtain ⟨imm, rest⟩ := found
    obtain ⟨hw, rfl⟩ := readImm_width_eq_some.mp hr
    refine ⟨imm, rest, hw, hf, readImmW_of_bytes hw fun k b hk => ?_⟩
    obtain ⟨hlt, -⟩ := List.getElem?_eq_some_iff.mp hk
    have hfetch : s.fetch[k + 1]? = some b := by
      rw [hf, List.getElem?_cons_succ, List.getElem?_append_left hlt, hk]
    rw [Nat.add_assoc, Nat.add_comm 1 k, State.read_of_fetch_getElem? hfetch]

/-- Where not all data bytes behind a one-byte header remain, the decoder is handed all that remains, and finds no
immediate in it (R75). -/
theorem readImm_eq_none_of_lt_immLenW {s : State} {w : Width} (hlt : s.cursor < s.inputLength)
    (hshort : s.inputLength < s.cursor + (1 + immLenW w)) :
    ∃ tail, s.fetch = s.input.read s.cursor :: tail ∧ readImm (immLenW w) tail = none ∧
      1 + tail.length = s.inputLength - s.cursor := by
  obtain ⟨tail, hf, hlen⟩ := State.fetch_eq_cons hlt
  have hcases := immLenW_cases w
  rw [maxInstrLength] at hlen
  exact ⟨tail, hf, (readImm_eq_none hcases).mpr (by omega), by omega⟩

end Sys2Proof.Machine
end

