-- ==== Sys2Proof/Proofs/ImmToReg.lean ====
section
/-! SUPPORT. The immediate → register family (42_imm_to_reg.md): mov with its immediate completes on every state, and a
step on a leading byte of the IR format completes it or is truncated by which of its data bytes remain. -/

namespace Sys2Proof

/-- A leading byte `1011wrrr` dispatches to the IR format (R60). -/
theorem dispatch_of_irOpcode {b0 : Byte} (h : b0.extractLsb' 4 4 = 0b1011#4) : dispatch b0 = .ir := by
  decide +revert

/-- The length of a one-byte header with its data bytes, by the header's width flag (R64). -/
theorem one_add_immLenW_ofBit (b : Bool) : 1 + immLenW (.ofBit b) = if b then 3 else 2 := by cases b <;> rfl

/-- The IR format is truncated where its data bytes cannot be read (R88). -/
theorem decode_ir_of_readImm_eq_none (p : Params) {b0 : Byte} {tail : List Byte} (hd : dispatch b0 = .ir)
    (hr : readImm (immLenW (.ofBit (byteBit b0 3))) tail = none) :
    decode p (b0 :: tail) = .reject (.truncated (1 + immLenW (.ofBit (byteBit b0 3))) (1 + tail.length)) := by
  simp only [decode, hd, decodeIR, hr]

/-- The IR format decodes where its data bytes begin the bytes behind its leading byte (R88). -/
theorem decode_ir_of_imm_bytes (p : Params) {b0 : Byte} {imm : ImmData} (hd : dispatch b0 = .ir)
    (hfit : imm.fitsWidth (.ofBit (byteBit b0 3)) = true) (rest : List Byte) :
    decode p (b0 :: (imm.bytes ++ rest)) = .ok (.movIR (.ofBit (byteBit b0 3)) (b0.extractLsb' 0 3) imm) rest := by
  simp only [decode, hd, decodeIR_eq_ok.mpr ⟨imm, hfit, rfl, rfl⟩]

end Sys2Proof

namespace Sys2Proof.Machine

open Sys2Proof.Rules

/-- The line of mov with its immediate (R89, R106, R112). -/
theorem lineOf_movIR (p : Params) (w : Width) (reg : Sel) (imm : ImmData) :
    lineOf p (.movIR w reg imm) = "mov " ++ regName w reg ++ ", " ++ dec (s16 (immValueW imm)) := rfl

/-- Settles O34: what `exec` answers for every instruction, with the line of this one. -/
theorem immToRegInstructionCompletes : Obligations.ImmToRegInstructionCompletes := by
  unfold Obligations.ImmToRegInstructionCompletes
  intro w reg imm s
  rw [exec_eq, lineOf_movIR]
  rfl

section

variable {s : State} {b0 : Byte} (hen : s.enabled) (hb0 : s.input.read s.cursor = b0) (hd : dispatch b0 = .ir)

include hen hb0 hd

/-- With all data bytes of mov's immediate left, a step completes it with the value that the spec's immediate reader
finds behind the leading byte (R88, R89). -/
theorem step_of_ir_complete (hfit : s.cursor + (1 + immLenW (.ofBit (byteBit b0 3))) ≤ s.inputLength) :
    step s = .next (emitted s ("mov " ++ regName (.ofBit (byteBit b0 3)) (b0.extractLsb' 0 3) ++ ", " ++
      dec (s16 (Pseudocode.readImmW s (s.cursor + 1) (.ofBit (byteBit b0 3))).1))
      (1 + immLenW (.ofBit (byteBit b0 3)))) := by
  obtain ⟨imm, rest, hw, hf, hv⟩ := exists_imm_of_immLenW_le hfit
  have hdec := decode_ir_of_imm_bytes s.params hd hw rest
  rw [hb0] at hf
  rw [← hf] at hdec
  rw [step_eq_exec_of_ok hen hdec, immToRegInstructionCompletes, hv, ImmData.fitsWidth_iff.mp hw]

/-- With not all data bytes of mov's immediate left, a step stops: its whole length is required (R88, R133). -/
theorem step_of_ir_data_missing (hshort : s.inputLength < s.cursor + (1 + immLenW (.ofBit (byteBit b0 3)))) :
    step s = .next (stopped s .truncated
      (.lengths (1 + immLenW (.ofBit (byteBit b0 3))) (s.inputLength - s.cursor))) := by
  obtain ⟨tail, hf, hr, hremain⟩ := readImm_eq_none_of_lt_immLenW hen.2 hshort
  refine step_of_truncated hen ?_
  rw [hf, hb0, decode_ir_of_readImm_eq_none s.params hd hr, hremain]

end

/-- Settles O42: the step on the IR format, whose length is 3 or 2 by the width flag (R89). -/
theorem movImmToRegFollowsItsRule : Obligations.MovImmToRegFollowsItsRule := by
  unfold Obligations.MovImmToRegFollowsItsRule
  intro s hen
  dsimp only
  intro hop
  have hd := dispatch_of_irOpcode hop
  rw [← one_add_immLenW_ofBit]
  exact ⟨step_of_ir_complete hen rfl hd, step_of_ir_data_missing hen rfl hd⟩

end Sys2Proof.Machine
end

