-- ==== Sys2Proof/Proofs/ImmToRm.lean ====
section
/-! SUPPORT. The immediate → register/memory family (43_imm_to_rm.md): the IRM format decodes, fails on its selector or is
truncated by which of its bytes remain, and a step follows. One proof for every group and selector; mov, add, sub and
cmp are its instances. -/

namespace Sys2Proof

open Sys2Proof.Rules

/-- A leading byte with the opcode bits of an IRM group dispatches to that group (R60, R91). -/
theorem dispatch_of_hasGroupOpcode {g : ImmGroup} {b0 : Byte} (h : hasGroupOpcode g b0 = true) :
    dispatch b0 = .irm g := by
  cases g <;> decide +revert

/-- The length of an IRM instruction, from its two header bytes (R64). -/
def irmLength (p : Params) (g : ImmGroup) (b0 b1 : Byte) : Nat :=
  2 + dispLen (Mode.ofField (modField b1)) (rmField b1) + immLenIRM p (signFlag g b0) (.ofBit (byteBit b0 0))

theorem two_le_irmLength (p : Params) (g : ImmGroup) (b0 b1 : Byte) : 2 ≤ irmLength p g b0 b1 := by
  rw [irmLength]
  omega

theorem irmLength_le_max (p : Params) (g : ImmGroup) (b0 b1 : Byte) : irmLength p g b0 b1 ≤ maxInstrLength := by
  have hdisp := dispLen_le (Mode.ofField (modField b1)) (rmField b1)
  have himm := immLenIRM_cases p (signFlag g b0) (.ofBit (byteBit b0 0))
  rw [irmLength, maxInstrLength]
  omega

/-- The data length of the IRM format in the words of its rule (R74). -/
theorem immLenIRM_eq_ite (p : Params) (s : Bool) (w : Width) :
    immLenIRM p s w = if p.immRmWideData ∧ w = .word ∧ s = false then 2 else 1 := by
  simp [immLenIRM, and_assoc]

/-- Only the group without a sign-extension flag selects mov (R62, R91). -/
theorem signFlag_of_secondary_mov {g : ImmGroup} {f : Sel} (h : secondary g f = some .mov) (b0 : Byte) :
    signFlag g b0 = false := by
  obtain ⟨-, ⟨-, hm⟩ | ⟨-, hm⟩ | ⟨-, hm⟩⟩ | ⟨rfl, -⟩ := secondary_eq_some h
  · cases hm
  · cases hm
  · cases hm
  · rfl

/-! ### The decoder on a leading byte of the IRM format -/

section

variable {g : ImmGroup} {m : Mnemonic} {b0 b1 : Byte} {tail : List Byte}

/-- The IRM format decodes where its selector has a mnemonic and its displacement and data bytes exist (R92). -/
theorem decode_irm_of_length_le (p : Params) (hd : dispatch b0 = .irm g) (hm : secondary g (regField b1) = some m)
    (h : irmLength p g b0 b1 ≤ 2 + tail.length) :
    ∃ op imm rest, op.wf = true ∧ op.mode = Mode.ofField (modField b1) ∧ op.sel = rmField b1 ∧
      imm.fitsIRM p (signFlag g b0) (.ofBit (byteBit b0 0)) = true ∧ tail = op.dispBytes ++ (imm.bytes ++ rest) ∧
      decode p (b0 :: b1 :: tail) = .ok (irmInstr m (signFlag g b0) (.ofBit (byteBit b0 0)) op imm) rest := by
  rw [irmLength] at h
  obtain ⟨op, t, hr⟩ :=
    exists_readRm_of_dispLen_le (mode := Mode.ofField (modField b1)) (rm := rmField b1) (bs := tail) (by omega)
  obtain ⟨hw, hmode, hsel, rfl⟩ := readRm_eq_some.mp hr
  have hdisp := RmOperand.dispLen_eq hw
  rw [hmode, hsel] at hdisp
  rw [List.length_append, RmOperand.dispBytes_length, hdisp] at h
  cases hi : readImm (immLenIRM p (signFlag g b0) (.ofBit (byteBit b0 0))) t with
  | none =>
    have hshort := (readImm_eq_none (immLenIRM_cases _ _ _)).mp hi
    omega
  | some found =>
    obtain ⟨imm, rest⟩ := found
    obtain ⟨hfit, rfl⟩ := readImm_irm_eq_some.mp hi
    exact ⟨op, imm, rest, hw, hmode, hsel, hfit, rfl, by simp [decode, hd, decodeIRM, hm, hr, hi]⟩

/-- The IRM format is truncated where its selector has a mnemonic and its displacement or data bytes do not all exist:
its whole length is required (R93, R134). -/
theorem decode_irm_of_lt_length (p : Params) (hd : dispatch b0 = .irm g) (hm : secondary g (regField b1) = some m)
    (h : 2 + tail.length < irmLength p g b0 b1) :
    decode p (b0 :: b1 :: tail) = .reject (.truncated (irmLength p g b0 b1) (2 + tail.length)) := by
  rw [irmLength] at h ⊢
  cases hr : readRm (Mode.ofField (modField b1)) (rmField b1) tail with
  | none => simp [decode, hd, decodeIRM, hm, hr]
  | some found =>
    obtain ⟨op, t⟩ := found
    obtain ⟨hw, hmode, hsel, rfl⟩ := readRm_eq_some.mp hr
    have hdisp := RmOperand.dispLen_eq hw
    rw [hmode, hsel] at hdisp
    rw [List.length_append, RmOperand.dispBytes_length, hdisp] at h
    have hi : readImm (immLenIRM p (signFlag g b0) (.ofBit (byteBit b0 0))) t = none :=
      (readImm_eq_none (immLenIRM_cases _ _ _)).mpr (by omega)
    simp [decode, hd, decodeIRM, hm, hr, hi]

/-- The IRM format is truncated where its second byte does not exist (R93). -/
theorem decode_irm_singleton (p : Params) (hd : dispatch b0 = .irm g) :
    decode p [b0] = .reject (.truncated 2 1) := by
  simp [decode, hd, decodeIRM]

end

end Sys2Proof

namespace Sys2Proof.Machine

open Sys2Proof.Rules

/-! ### The IRM instructions as terms -/

/-- The line of an IRM instruction, mov's without sign extension (R79, R91, R106). -/
theorem lineOf_irmInstr (p : Params) {m : Mnemonic} {s : Bool} (hs : m = .mov → s = false) (w : Width)
    (rm : RmOperand) (imm : ImmData) :
    lineOf p (irmInstr m s w rm imm) =
      lineText p w (mnemText m) (resolveRm rm.mode rm.sel w (dispValue rm)) (.imm (immValueIRM s w imm)) := by
  cases m with
  | mov =>
    rw [hs rfl]
    rfl
  | add => rfl
  | sub => rfl
  | cmp => rfl

theorem exec_irmInstr {m : Mnemonic} {sx : Bool} (hs : m = .mov → sx = false) (w : Width) (rm : RmOperand)
    (imm : ImmData) (s : State) :
    exec (irmInstr m sx w rm imm) s = .next (immRmResult (mnemText m) sx w rm imm s) := by
  rw [exec_eq, lineOf_irmInstr _ hs, length_irmInstr]
  rfl

/-- Settles O35: the four forms are the IRM instructions of the four mnemonics. -/
theorem immToRmInstructionsComplete : Obligations.ImmToRmInstructionsComplete := by
  unfold Obligations.ImmToRmInstructionsComplete
  intro sx w rm imm s
  exact ⟨exec_irmInstr (m := .mov) (fun _ => rfl) w rm imm s, exec_irmInstr (m := .add) nofun w rm imm s,
    exec_irmInstr (m := .sub) nofun w rm imm s, exec_irmInstr (m := .cmp) nofun w rm imm s⟩

/-! ### The spec's immediate reader -/

/-- Bytes handed to the decoder behind others are the input's bytes that many indices further. -/
theorem State.read_of_fetch_append {s : State} {before bs rest : List Byte} (hf : s.fetch = before ++ (bs ++ rest))
    {k : Nat} {b : Byte} (hk : bs[k]? = some b) : s.input.read (s.cursor + before.length + k) = b := by
  obtain ⟨hlt, -⟩ := List.getElem?_eq_some_iff.mp hk
  rw [Nat.add_assoc]
  refine State.read_of_fetch_getElem? ?_
  rw [hf, List.getElem?_append_right (Nat.le_add_right _ _), Nat.add_sub_cancel_left, List.getElem?_append_left hlt, hk]

/-- The spec's immediate reader answers the value of an immediate that fits the IRM format where `IN` holds its bytes
(R74). -/
theorem readImmIRM_of_bytes {s : State} {p : Nat} {sx : Bool} {w : Width} {imm : ImmData}
    (hfit : imm.fitsIRM s.params sx w = true) (hread : ∀ k b, imm.bytes[k]? = some b → s.input.read (p + k) = b) :
    Pseudocode.readImmIRM s p w sx = (immValueIRM sx w imm, imm.length) := by
  cases imm with
  | one b =>
    have hnarrow : ¬ (s.params.immRmWideData ∧ w = .word ∧ sx = false) := by
      rintro ⟨hwide, rfl, rfl⟩
      simp [ImmData.fitsIRM, hwide] at hfit
    have hv : Pseudocode.memRead1 s p = b := hread 0 _ rfl
    rw [Pseudocode.readImmIRM, if_neg hnarrow, hv]
    by_cases hx : sx = true ∧ w = .word <;> simp [immValueIRM, ImmData.length, hx]
  | two v =>
    have hwide : s.params.immRmWideData ∧ w = .word ∧ sx = false := by
      simpa [ImmData.fitsIRM, and_assoc] using hfit
    have hv : Pseudocode.memRead2 s p = v := memRead2_eq (hread 0 _ rfl) (hread 1 _ rfl)
    rw [Pseudocode.readImmIRM, if_pos hwide, hv]
    rfl

/-! ### A step on a leading byte of the IRM format -/

section

variable {s : State} {g : ImmGroup} {b0 b1 : Byte} (hen : s.enabled) (hb0 : s.input.read s.cursor = b0)
  (hd : dispatch b0 = .irm g)

include hen hb0 hd

/-- With no second byte of an IRM instruction left, a step stops: two bytes are required (R93, R134). -/
theorem step_of_irm_second_missing (hone : s.inputLength < s.cursor + 2) :
    step s = .next (stopped s .truncated (.lengths 2 (s.inputLength - s.cursor))) := by
  have hlt : s.cursor < s.inputLength := hen.2
  have hremain : s.inputLength - s.cursor = 1 := by omega
  rw [hremain]
  refine step_of_truncated hen ?_
  rw [State.fetch_eq_singleton hlt hone, hb0, decode_irm_singleton s.params hd]

variable {m : Mnemonic} (hb1 : s.input.read (s.cursor + 1) = b1) (hm : secondary g (regField b1) = some m)

include hb1 hm

/-- With all bytes of an IRM instruction left, a step completes it on the r/m operand and the immediate whose values the
spec's two readers find behind its header (R92, R94 to R97). -/
theorem step_of_irm_complete (hfit : s.cursor + irmLength s.params g b0 b1 ≤ s.inputLength) :
    let w := Width.ofBit (byteBit b0 0)
    let mode := Mode.ofField (modField b1)
    let rm := rmField b1
    step s = .next (emitted s (lineText s.params w (mnemText m)
      (resolveRm mode rm w (Pseudocode.readDisp s (s.cursor + 2) mode rm).1)
      (.imm (Pseudocode.readImmIRM s (s.cursor + 2 + dispLen mode rm) w (signFlag g b0)).1))
      (irmLength s.params g b0 b1)) := by
  intro w mode rm
  have htwo := two_le_irmLength s.params g b0 b1
  have hmax := irmLength_le_max s.params g b0 b1
  obtain ⟨tail, hf⟩ := State.fetch_eq_cons_cons (s := s) (by omega)
  rw [hb0, hb1] at hf
  have hlen := State.length_tail_of_fetch hf
  obtain ⟨op, imm, rest, hw, hmode, hrm, himm, rfl, hdec⟩ :=
    decode_irm_of_length_le (tail := tail) s.params hd hm (by omega)
  have hdisp := readDisp_of_fetch hw hf
  have hdl := RmOperand.dispLen_eq hw
  rw [hmode, hrm] at hdisp hdl
  have hbefore : s.cursor + (b0 :: b1 :: op.dispBytes).length = s.cursor + 2 + dispLen mode rm := by
    simp only [List.length_cons, RmOperand.dispBytes_length, mode, rm, hdl]
    omega
  have hv := readImmIRM_of_bytes himm fun k b hk =>
    State.read_of_fetch_append (before := b0 :: b1 :: op.dispBytes) hf hk
  rw [hbefore] at hv
  have hmov : m = .mov → signFlag g b0 = false := fun h => signFlag_of_secondary_mov (h ▸ hm) b0
  rw [← hf] at hdec
  rw [step_eq_exec_of_ok hen hdec, exec_irmInstr hmov, immRmResult, hmode, hrm, hdisp, hv, ← hdl,
    ImmData.fitsIRM_iff.mp himm, irmLength]

/-- With a second byte but not all displacement and data bytes of an IRM instruction left, a step stops (R93, R133). -/
theorem step_of_irm_bytes_missing (htwo : s.cursor + 2 ≤ s.inputLength)
    (hshort : s.inputLength < s.cursor + irmLength s.params g b0 b1) :
    step s = .next (stopped s .truncated (.lengths (irmLength s.params g b0 b1) (s.inputLength - s.cursor))) := by
  have hmax := irmLength_le_max s.params g b0 b1
  obtain ⟨tail, hf⟩ := State.fetch_eq_cons_cons htwo
  rw [hb0, hb1] at hf
  have hlen := State.length_tail_of_fetch hf
  have hremain : s.inputLength - s.cursor = 2 + tail.length := by omega
  rw [hremain]
  refine step_of_truncated hen ?_
  rw [hf, decode_irm_of_lt_length s.params hd hm (by omega)]

end

/-- Each selector with a mnemonic follows the rule of its group, by which of its bytes remain (R93 to R97). -/
theorem immRmRule_of_secondary {g : ImmGroup} {sel : Sel} {m : Mnemonic} (hm : secondary g sel = some m) :
    immRmRule g sel (mnemText m) := by
  unfold immRmRule
  intro s hen
  dsimp only
  intro hop
  have hd := dispatch_of_hasGroupOpcode hop
  rw [← immLenIRM_eq_ite]
  exact ⟨fun hsel => step_of_irm_complete hen rfl hd rfl (hsel ▸ hm),
    fun hsel => step_of_irm_bytes_missing hen rfl hd rfl (hsel ▸ hm),
    fun hfail htwo => step_of_unsupported_selector hen htwo hd hfail, step_of_irm_second_missing hen rfl hd⟩

/-- Settles O43: selector 000 of the group `1100011w` is mov. -/
theorem movImmToRmFollowsItsRule : Obligations.MovImmToRmFollowsItsRule := immRmRule_of_secondary (m := .mov) rfl

/-- Settles O44: selector 000 of the group `100000sw` is add. -/
theorem addImmToRmFollowsItsRule : Obligations.AddImmToRmFollowsItsRule := immRmRule_of_secondary (m := .add) rfl

/-- Settles O45: selector 101 of the group `100000sw` is sub. -/
theorem subImmToRmFollowsItsRule : Obligations.SubImmToRmFollowsItsRule := immRmRule_of_secondary (m := .sub) rfl

/-- Settles O46: selector 111 of the group `100000sw` is cmp. -/
theorem cmpImmToRmFollowsItsRule : Obligations.CmpImmToRmFollowsItsRule := immRmRule_of_secondary (m := .cmp) rfl

end Sys2Proof.Machine
end

