-- ==== Sys2Proof/Proofs/ImmToAcc.lean ====
section
/-! SUPPORT. The immediate → accumulator family (44_imm_to_acc.md): the IA format decodes or is truncated by which of its
data bytes remain, and a step follows. One proof for every mnemonic; add, sub and cmp are its instances. -/

namespace Sys2Proof

/-- A leading byte with the seven opcode bits of an IA instruction dispatches to its mnemonic (R60). -/
theorem dispatch_of_iaOpcode {m : AccMnemonic} {b0 : Byte} (h : b0.extractLsb' 1 7 = iaOpcode m) :
    dispatch b0 = .ia m := by
  cases m <;> decide +revert

/-- The IA format is truncated where its data bytes cannot be read (R99, R100). -/
theorem decode_ia_of_readImm_eq_none (p : Params) {m : AccMnemonic} {b0 : Byte} {tail : List Byte}
    (hd : dispatch b0 = .ia m) (hr : readImm (immLenW (.ofBit (byteBit b0 0))) tail = none) :
    decode p (b0 :: tail) = .reject (.truncated (1 + immLenW (.ofBit (byteBit b0 0))) (1 + tail.length)) := by
  simp only [decode, hd, decodeIA, hr]

/-- The IA format decodes where its data bytes begin the bytes behind its leading byte (R99). -/
theorem decode_ia_of_imm_bytes (p : Params) {m : AccMnemonic} {b0 : Byte} {imm : ImmData} (hd : dispatch b0 = .ia m)
    (hfit : imm.fitsWidth (.ofBit (byteBit b0 0)) = true) (rest : List Byte) :
    decode p (b0 :: (imm.bytes ++ rest)) = .ok (iaInstr m (.ofBit (byteBit b0 0)) imm) rest := by
  simp only [decode, hd, decodeIA_eq_ok.mpr ⟨imm, hfit, rfl, rfl⟩]

end Sys2Proof

namespace Sys2Proof.Machine

open Sys2Proof.Rules

/-! ### The IA instructions as terms -/

/-- The line of an IA instruction (R71, R106, R112). -/
theorem lineOf_iaInstr (p : Params) (m : AccMnemonic) (w : Width) (imm : ImmData) :
    lineOf p (iaInstr m w imm) = mnemText (Pseudocode.accMnemonic m) ++ " " ++ accumulatorName w ++ ", " ++
      dec (s16 (immValueW imm)) := by cases m <;> rfl

/-- The result of an IA instruction by its width flag, which names the accumulator (R71). -/
theorem immAccResult_ofBit (mnemonic : String) (b : Bool) (imm : ImmData) (s : State) :
    immAccResult mnemonic (.ofBit b) imm s = emitted s
      (mnemonic ++ " " ++ (if b then "ax" else "al") ++ ", " ++ dec (s16 (immValueW imm))) (1 + imm.length) := by
  cases b <;> rfl

theorem exec_iaInstr (m : AccMnemonic) (w : Width) (imm : ImmData) (s : State) :
    exec (iaInstr m w imm) s = .next (immAccResult (mnemText (Pseudocode.accMnemonic m)) w imm s) := by
  rw [exec_eq, lineOf_iaInstr, length_iaInstr]
  cases w <;> rfl

/-- Settles O36: the three forms are the IA instructions of the three mnemonics. -/
theorem immToAccInstructionsComplete : Obligations.ImmToAccInstructionsComplete := by
  unfold Obligations.ImmToAccInstructionsComplete
  intro w imm s
  exact ⟨exec_iaInstr .add w imm s, exec_iaInstr .sub w imm s, exec_iaInstr .cmp w imm s⟩

/-! ### A step on a leading byte of the IA format -/

section

variable {s : State} {m : AccMnemonic} {b0 : Byte} (hen : s.enabled) (hb0 : s.input.read s.cursor = b0)
  (hd : dispatch b0 = .ia m)

include hen hb0 hd

/-- With all data bytes of an IA instruction left, a step completes it with the value that the spec's immediate reader
finds behind the leading byte (R99, R101 to R103). -/
theorem step_of_ia_complete (hfit : s.cursor + (1 + immLenW (.ofBit (byteBit b0 0))) ≤ s.inputLength) :
    step s = .next (emitted s (mnemText (Pseudocode.accMnemonic m) ++ " " ++
      (if byteBit b0 0 then "ax" else "al") ++ ", " ++
      dec (s16 (Pseudocode.readImmW s (s.cursor + 1) (.ofBit (byteBit b0 0))).1))
      (1 + immLenW (.ofBit (byteBit b0 0)))) := by
  obtain ⟨imm, rest, hw, hf, hv⟩ := exists_imm_of_immLenW_le hfit
  have hdec := decode_ia_of_imm_bytes s.params hd hw rest
  rw [hb0] at hf
  rw [← hf] at hdec
  rw [step_eq_exec_of_ok hen hdec, exec_iaInstr, immAccResult_ofBit, hv, ImmData.fitsWidth_iff.mp hw]

/-- With not all data bytes of an IA instruction left, a step stops: its whole length is required (R100, R133). -/
theorem step_of_ia_data_missing (hshort : s.inputLength < s.cursor + (1 + immLenW (.ofBit (byteBit b0 0)))) :
    step s = .next (stopped s .truncated
      (.lengths (1 + immLenW (.ofBit (byteBit b0 0))) (s.inputLength - s.cursor))) := by
  obtain ⟨tail, hf, hr, hremain⟩ := readImm_eq_none_of_lt_immLenW hen.2 hshort
  refine step_of_truncated hen ?_
  rw [hf, hb0, decode_ia_of_readImm_eq_none s.params hd hr, hremain]

end

/-- Each IA opcode follows the rule of its mnemonic, by which of its data bytes remain (R101 to R103). -/
theorem immAccRule_of_mnemonic (m : AccMnemonic) :
    immAccRule (iaOpcode m) (mnemText (Pseudocode.accMnemonic m)) := by
  unfold immAccRule
  intro s hen
  dsimp only
  intro hop
  have hd := dispatch_of_iaOpcode hop
  rw [← one_add_immLenW_ofBit]
  exact ⟨step_of_ia_complete hen rfl hd, step_of_ia_data_missing hen rfl hd⟩

/-- Settles O47: `0000010` is the IA opcode of add. -/
theorem addImmToAccFollowsItsRule : Obligations.AddImmToAccFollowsItsRule := immAccRule_of_mnemonic .add

/-- Settles O48: `0010110` is the IA opcode of sub. -/
theorem subImmToAccFollowsItsRule : Obligations.SubImmToAccFollowsItsRule := immAccRule_of_mnemonic .sub

/-- Settles O49: `0011110` is the IA opcode of cmp. -/
theorem cmpImmToAccFollowsItsRule : Obligations.CmpImmToAccFollowsItsRule := immAccRule_of_mnemonic .cmp

end Sys2Proof.Machine
end

