-- ==== Sys2Proof/Proofs/Renderer.lean ====
section
/-! SUPPORT. The renderer's texts (45_renderer.md): the decimal spelling of an integer (R115), the operands (R108 to
R112), and the byte image of the output (R116). -/

namespace Sys2Proof.Machine

open Sys2Proof.Rules

/-! ### Decimal spelling (R115) -/

/-- Only zero is spelled with a leading `0`: the digits of a larger number begin with those of its tenth. -/
theorem eq_zero_of_head?_toDigits {n : Nat} (h : (Nat.toDigits 10 n).head? = some '0') : n = 0 := by
  induction n using Nat.strongRecOn with
  | ind n ih =>
    by_cases hlt : n < 10
    · rw [Nat.toDigits_of_lt_base hlt] at h
      simpa using h
    · have hle : 10 ≤ n := Nat.le_of_not_lt hlt
      rw [Nat.toDigits_of_base_le (by decide) hle, List.head?_append_of_ne_nil _ Nat.toDigits_ne_nil] at h
      have htenth : n / 10 = 0 := ih (n / 10) (by omega) h
      omega

theorem plainDecimal_toDigits (n : Nat) : plainDecimal (Nat.toDigits 10 n) := by
  refine ⟨Nat.toDigits_ne_nil, fun c hc => Nat.isDigit_of_mem_toDigits (by decide) (by decide) hc, fun h => ?_⟩
  rw [eq_zero_of_head?_toDigits h, Nat.toDigits_zero]

theorem decimalValue_toDigits (n : Nat) : decimalValue (Nat.toDigits 10 n) = n := by
  rw [decimalValue, ← Nat.ofDigitChars_eq_foldl, Nat.ofDigitChars_ten_toDigits]

theorem toList_dec (x : Int) :
    (dec x).toList = if x < 0 then '-' :: Nat.toDigits 10 x.natAbs else Nat.toDigits 10 x.natAbs := by
  simp only [dec, apply_ite String.toList, String.toList_append, String.toList_ofList]
  rfl

/-- Settles O55: the digits are those of the absolute value. -/
theorem decimalSpellingIsFaithful : Obligations.DecimalSpellingIsFaithful := by
  unfold Obligations.DecimalSpellingIsFaithful
  exact fun x => ⟨Nat.toDigits 10 x.natAbs, plainDecimal_toDigits _, decimalValue_toDigits _, toList_dec x⟩

/-! ### The byte image of the output (R116, R117) -/

theorem outputImage_cons (line : String) (out : List String) :
    outputImage (line :: out) = line ++ "\n" ++ outputImage out := rfl

theorem toList_outputImage (out : List String) :
    (outputImage out).toList = out.flatMap (fun line => line.toList ++ ['\n']) := by
  induction out with
  | nil => rfl
  | cons line out ih =>
    rw [outputImage_cons, String.toList_append, String.toList_append, ih, List.flatMap_cons]
    rfl

/-- No instruction line holds a character outside the grammar's alphabet (R106). -/
theorem notMem_lineOf {c : Char} (hc : c ∉ lineAlphabet) (p : Params) (i : Instr) : c ∉ (lineOf p i).toList :=
  fun h => hc (overAlphabet_iff.mp (overAlphabet_of_isToken (isToken_lineOf p i)) c h)

theorem headerComment_of_headerOk {p : Params} (h : p.headerOk = true) :
    '\n' ∉ p.headerComment.toList ∧ '\r' ∉ p.headerComment.toList := by
  rw [Params.headerOk, Bool.and_eq_true, List.all_eq_true] at h
  obtain ⟨-, hall⟩ := h
  exact ⟨fun hc => absurd (hall _ hc) (by decide), fun hc => absurd (hall _ hc) (by decide)⟩

theorem headerLines_of_headerOk {p : Params} (h : p.headerOk = true) {line : String} (hl : line ∈ headerLines p) :
    '\n' ∉ line.toList ∧ '\r' ∉ line.toList := by
  obtain rfl | rfl : line = p.headerComment ∨ line = headerModeLine := by simpa [headerLines] using hl
  · exact headerComment_of_headerOk h
  · decide

/-- Settles O57: an instruction line is over the grammar's alphabet, which has no line break. -/
theorem outputImageEndsEachLineWithLineFeed : Obligations.OutputImageEndsEachLineWithLineFeed := by
  unfold Obligations.OutputImageEndsEachLineWithLineFeed
  exact ⟨toList_outputImage, fun p i => ⟨notMem_lineOf (by decide) p i, notMem_lineOf (by decide) p i⟩,
    fun _ h _ hl => headerLines_of_headerOk h hl⟩

/-! ### Operands (R108 to R111) -/

theorem dispText_zero : dispText 0x0000#16 = "" := rfl

theorem dispText_of_ne_zero {v : Word} (h : v ≠ 0x0000#16) : dispText v = " + " ++ dec v.toInt := if_neg h

theorem renderOp_mem (q : DirectAddrQualifier) (w : Width) (expr : String) (v : Word) :
    renderOp q w (.mem expr v) = sizeText w ++ " [" ++ expr ++ dispText v ++ "]" := rfl

theorem renderOp_mem_zero (q : DirectAddrQualifier) (w : Width) (expr : String) :
    renderOp q w (.mem expr 0x0000#16) = sizeText w ++ " [" ++ expr ++ "]" := by
  rw [renderOp_mem, dispText_zero, String.append_empty]

theorem renderOp_mem_of_ne_zero (q : DirectAddrQualifier) (w : Width) (expr : String) {v : Word}
    (h : v ≠ 0x0000#16) :
    renderOp q w (.mem expr v) = sizeText w ++ " [" ++ expr ++ " + " ++ dec v.toInt ++ "]" := by
  rw [renderOp_mem, dispText_of_ne_zero h, ← String.append_assoc]

/-- Settles O53: a memory operand by whether its displacement is zero, the other operands by their constructor. -/
theorem operandsRenderAsRuled : Obligations.OperandsRenderAsRuled := by
  unfold Obligations.OperandsRenderAsRuled
  exact ⟨rfl, rfl, fun q w _ expr _ =>
    ⟨rfl, renderOp_mem_zero q w expr, renderOp_mem_of_ne_zero q w expr, rfl, rfl⟩⟩

/-! ### Immediates (R112) -/

theorem toInt_zext16 (b : Byte) : (zext16 b).toInt = b.toNat := BitVec.toInt_setWidth'_of_lt (by decide)

theorem toInt_sext16 (b : Byte) : (sext16 b).toInt = b.toInt := BitVec.toInt_signExtend_of_le (by decide)

theorem immValueIRM_one_of_not {s : Bool} {w : Width} (h : ¬ (s = true ∧ w = .word)) (b : Byte) :
    immValueIRM s w (.one b) = zext16 b := by
  rw [immValueIRM, if_neg (by simpa using h)]

/-- Settles O54: a one-byte immediate is the extension its flags select, a two-byte one is its word. -/
theorem immediatesRenderInTheirRange : Obligations.ImmediatesRenderInTheirRange := by
  unfold Obligations.ImmediatesRenderInTheirRange
  refine ⟨fun _ _ _ => rfl, rfl, toInt_zext16, fun s w b h => ?_, fun b => ?_, fun s w v => ?_⟩
  · rw [immValueIRM_one_of_not h, toInt_zext16]
  · exact ⟨toInt_sext16 b, BitVec.le_toInt b, BitVec.toInt_le⟩
  · exact ⟨rfl, rfl, BitVec.le_toInt v, BitVec.toInt_le⟩

end Sys2Proof.Machine
end

