-- ==== Sys2Proof/Proofs/DecodeLoop.lean ====
section
/-! SUPPORT. One step of the Decode Loop (R119 to R125): when it is enabled, the fault it answers where it is not, the
instruction it runs, and the two states it can answer. -/

namespace Sys2Proof.Machine

open Sys2Proof.Rules

/-! ### When a step is enabled (R119) -/

/-- An enabled step answers a next state, whether the bytes at the cursor decode or are rejected (R121). -/
theorem exists_next_of_enabled {s : State} (h : s.enabled) : ∃ t, step s = .next t := by
  cases hd : decode s.params s.fetch with
  | ok i rest => exact ⟨_, step_of_ok h hd⟩
  | reject r => exact ⟨_, step_of_reject h hd⟩

/-- Settles O11: both things an enabled step does answer a next state, and no other step does. -/
theorem stepIsEnabledExactlyWhenRunningBeforeTheEnd : Obligations.StepIsEnabledExactlyWhenRunningBeforeTheEnd := by
  unfold Obligations.StepIsEnabledExactlyWhenRunningBeforeTheEnd
  intro s
  exact ⟨fun ⟨_, ht⟩ => (step_next_cases ht).1, exists_next_of_enabled⟩

theorem step_of_select_disabled {s : State} {f : Fault} (h : s.select = .disabled f) : step s = .fault f := by
  simp only [step, h]

theorem State.select_of_stopped {s : State} (h : s.run = .stopped) : s.select = .disabled .passStopped := by
  simp only [State.select, h]

theorem State.select_of_done {s : State} (h : s.done) : s.select = .disabled .passDone := by
  simp [State.select, h.1, h.2]

theorem State.select_of_past_end {s : State} (h : s.run = .running) (hlt : s.inputLength < s.cursor) :
    s.select = .disabled .cursorPastEnd := by
  simp [State.select, h, hlt.not_gt, hlt.ne']

/-- Settles O12: what the loop selects after a stop, at the end of the input, and beyond it. -/
theorem disabledStepFaultNamesWhy : Obligations.DisabledStepFaultNamesWhy := by
  unfold Obligations.DisabledStepFaultNamesWhy
  intro s
  exact ⟨fun hrun => step_of_select_disabled (State.select_of_stopped hrun),
    fun hrun hend => step_of_select_disabled (State.select_of_done ⟨hrun, hend⟩),
    fun hrun hlt => step_of_select_disabled (State.select_of_past_end hrun hlt)⟩

/-! ### The instruction a step runs (R120, R121) -/

/-- Settles O13: the loop selects the decoded instruction, and the step is its meaning. -/
theorem stepRunsTheDecodedInstruction : Obligations.StepRunsTheDecodedInstruction := by
  unfold Obligations.StepRunsTheDecodedInstruction
  intro s i rest hen hd
  exact step_eq_exec_of_ok hen hd

/-- A byte left to read is a cursor before the end of the input. -/
theorem State.cursor_lt_of_prefix_unread {s : State} {bs : List Byte} (hne : 0 < bs.length) (h : bs <+: s.unread) :
    s.cursor < s.inputLength := by
  have hlen := h.length_le
  rw [State.unread_length] at hlen
  omega

/-- Settles O14: the encoding, which is not empty, leaves the step enabled, and it decodes to its instruction. -/
theorem stepRunsTheEncodedInstruction : Obligations.StepRunsTheEncodedInstruction := by
  unfold Obligations.StepRunsTheEncodedInstruction
  intro s i hrun hwf hprefix
  have htwo := two_le_length i
  have hlt := State.cursor_lt_of_prefix_unread (by rw [encode_length]; omega) hprefix
  obtain ⟨rest, hd⟩ := decode_fetch_iff_encode_begins_unread.mpr ⟨hwf, hprefix⟩
  exact step_eq_exec_of_ok ⟨hrun, hlt⟩ hd

/-- Bytes placed at the cursor of a canonical buffer begin the unread ones (R38; log entry 20). -/
theorem State.prefix_unread_placeAtCursor {s : State} (h : s.input.wf) (bs : List Byte) :
    bs <+: (s.placeAtCursor bs).unread := by
  refine List.prefix_iff_getElem?.mpr fun k hk => ?_
  have hlt : k < max s.inputLength (s.cursor + bs.length) - s.cursor := by omega
  simp [State.unread, List.getElem?_range hlt, Memory.read_writeBytes h, hk]

/-- Settles O15: the placed encoding begins the unread bytes, so the step runs its instruction. -/
theorem placedInstructionRunsNext : Obligations.PlacedInstructionRunsNext := by
  unfold Obligations.PlacedInstructionRunsNext
  intro s i hmem hwf
  exact stepRunsTheEncodedInstruction (s.placeAtCursor (encode i)) i rfl hwf
    (State.prefix_unread_placeAtCursor hmem (encode i))

/-- Settles O37: every instruction appends the line of its record and advances by its length, two to six bytes. -/
theorem instructionsChangeOnlyOutAndCursor : Obligations.InstructionsChangeOnlyOutAndCursor := by
  unfold Obligations.InstructionsChangeOnlyOutAndCursor
  intro i s t h
  rw [exec_eq] at h
  obtain rfl := Host.Outcome.next.inj h
  exact ⟨rfl, rfl, rfl, rfl, rfl, fun _ => rfl, ⟨_, rfl⟩, Nat.add_le_add_left (two_le_length i) _,
    Nat.add_le_add_left (length_le_max i) _⟩

/-! ### The state a step answers, by its `run` (R122, R125) -/

/-- A step that leaves `run` RUNNING completed the instruction that decodes at the cursor (R121, R122). -/
theorem step_next_running {s t : State} (h : step s = .next t) (hrun : t.run = .running) :
    ∃ i rest, decode s.params s.fetch = .ok i rest ∧ t = emitted s (lineOf s.params i) i.length := by
  obtain ⟨-, hok | ⟨r, -, rfl⟩⟩ := step_next_cases h
  · exact hok
  · cases hrun

/-- A step that leaves `run` STOPPED was the stop transition for a rejection (R121, R125). -/
theorem step_next_stopped {s t : State} (h : step s = .next t) (hrun : t.run = .stopped) :
    ∃ r, decode s.params s.fetch = .reject r ∧ t = s.stopWith r := by
  obtain ⟨hen, ⟨i, rest, -, rfl⟩ | hreject⟩ := step_next_cases h
  · exact absurd (hen.1.symm.trans hrun) nofun
  · exact hreject

/-- Settles O17: the instruction that decoded has R64's length, between two and six bytes. -/
theorem successfulStepAppendsOneLineAndAdvances : Obligations.SuccessfulStepAppendsOneLineAndAdvances := by
  unfold Obligations.SuccessfulStepAppendsOneLineAndAdvances
  intro s t h hrun
  obtain ⟨i, rest, hd, rfl⟩ := step_next_running h hrun
  rw [← length_eq_fullLength_of_decode hd]
  exact ⟨lineOf s.params i, two_le_length i, length_le_max i, rfl⟩

/-- Settles O19: a stop is the stop transition, and a step from STOPPED is not enabled. -/
theorem stopWritesRunAndDiagOnceAndIsAbsorbing : Obligations.StopWritesRunAndDiagOnceAndIsAbsorbing := by
  unfold Obligations.StopWritesRunAndDiagOnceAndIsAbsorbing
  constructor
  · intro s t h hrun
    obtain ⟨r, -, rfl⟩ := step_next_stopped h hrun
    exact ⟨rejectReason r, rejectDetail r, rfl⟩
  · intro s hrun t h
    rw [step_of_select_disabled (State.select_of_stopped hrun)] at h
    cases h

end Sys2Proof.Machine
end

