-- ==== Sys2Proof/Proofs/Disassembly.lean ====
section
/-! SUPPORT. The output is the disassembly of the consumed bytes (R129): an executed instruction moves its encoding from
the unread bytes to the consumed ones and its line to the output. -/

namespace Sys2Proof.Machine

open Sys2Proof.Rules

/-! ### The consumed and the unread bytes after an advance -/

theorem consumed_emitted {s : State} {k : Nat} (h : s.cursor + k ≤ s.inputLength) (line : String) :
    (emitted s line k).consumed = s.consumed ++ s.unread.take k := by
  have hk : k ≤ s.inputLength - s.cursor := by omega
  simp [State.consumed, State.unread, emitted, List.range_add, ← List.map_take, List.take_range, hk]

theorem unread_emitted (s : State) (line : String) (k : Nat) :
    (emitted s line k).unread = s.unread.drop k := by
  refine List.ext_getElem (by simp [emitted, Nat.sub_sub]) fun j _ _ => ?_
  simp [State.unread, emitted, Nat.add_assoc]

/-- The bytes an instruction consumes are its encoding, where that begins the unread bytes. -/
theorem consumed_emitted_of_encode {s : State} {i : Instr} (h : encode i <+: s.unread) (line : String) :
    (emitted s line i.length).consumed = s.consumed ++ encode i := by
  have hlen := h.length_le
  have htwo := two_le_length i
  rw [encode_length, State.unread_length] at hlen
  rw [consumed_emitted (by omega), ← encode_length i, List.prefix_iff_eq_take.mp h |>.symm]

/-! ### The invariant -/

/-- Executing the instruction whose encoding comes next keeps the output the disassembly of the consumed bytes: one
instruction more (R122). -/
theorem State.outputIsDisassembly.emitted {s : State} (hs : s.outputIsDisassembly) {i : Instr}
    (hwf : i.wf s.params = true) (h : encode i <+: s.unread) :
    (emitted s (lineOf s.params i) i.length).outputIsDisassembly := by
  obtain ⟨is, hall, hconsumed, hout⟩ := hs
  refine ⟨is ++ [i], ?_, ?_, ?_⟩
  · rintro j hj
    rcases List.mem_append.mp hj with hj | hj
    · exact hall j hj
    · exact List.mem_singleton.mp hj ▸ hwf
  · rw [consumed_emitted_of_encode h, hconsumed]
    simp
  · show s.out ++ [lineOf s.params i] = headerLines s.params ++ (is ++ [i]).map (lineOf s.params)
    rw [hout]
    simp

/-- Settles O8: a completed instruction adds its encoding and its line; a stop leaves both the bytes and `out`. -/
theorem everyStepKeepsOutputTheDisassembly : Obligations.EveryStepKeepsOutputTheDisassembly := by
  unfold Obligations.EveryStepKeepsOutputTheDisassembly
  intro s t hs h
  obtain ⟨-, ⟨i, rest, hd, rfl⟩ | ⟨r, -, rfl⟩⟩ := step_next_cases h
  · obtain ⟨hwf, hprefix⟩ := decode_fetch_iff_encode_begins_unread.mp ⟨rest, hd⟩
    exact hs.emitted hwf hprefix
  · exact hs

/-! ### Runs of steps -/

theorem runSteps_succ_of_next {s t : State} (h : step s = .next t) (n : Nat) :
    runSteps (n + 1) s = runSteps n t := by
  simp only [runSteps, h]

/-- Where no step is enabled the run stays (R119). -/
theorem runSteps_of_not_enabled {s : State} (h : ¬ s.enabled) (n : Nat) : runSteps n s = s := by
  obtain ⟨f, hf⟩ := step_of_not_enabled h
  cases n with
  | zero => rfl
  | succ n => simp only [runSteps, hf]

/-- What every step keeps holds after any number of steps. -/
theorem runSteps_induction {P : State → Prop} (hstep : ∀ s t, P s → step s = .next t → P t) (n : Nat) {s : State}
    (hs : P s) : P (runSteps n s) := by
  induction n generalizing s with
  | zero => exact hs
  | succ n ih =>
    by_cases hen : s.enabled
    · obtain ⟨t, ht⟩ := exists_next_of_enabled hen
      rw [runSteps_succ_of_next ht]
      exact ih (hstep s t hs ht)
    · rwa [runSteps_of_not_enabled hen]

/-- At the start of a pass nothing is consumed, and `out` is the header lines (R144, R145). -/
theorem startPass_outputIsDisassembly (s : State) (bytes : List Byte) :
    (s.startPass bytes).outputIsDisassembly :=
  ⟨[], by simp, rfl, by simp⟩

/-- Settles O9: the output is the disassembly at the start of a pass, and every step keeps it so. -/
theorem linesAreTheDecodedInstructionsInOrder : Obligations.LinesAreTheDecodedInstructionsInOrder := by
  unfold Obligations.LinesAreTheDecodedInstructionsInOrder
  intro s bytes n
  exact runSteps_induction everyStepKeepsOutputTheDisassembly n (startPass_outputIsDisassembly s bytes)

/-! ### A stream of encodings -/

/-- A step on an encoding emits its line and leaves the bytes behind it unread (R121, R122). -/
theorem step_of_unread_eq_encode_append {s : State} {i : Instr} {rest : List Byte} (hrun : s.run = .running)
    (hwf : i.wf s.params = true) (h : s.unread = encode i ++ rest) :
    step s = .next (emitted s (lineOf s.params i) i.length) ∧
      (emitted s (lineOf s.params i) i.length).unread = rest := by
  constructor
  · rw [stepRunsTheEncodedInstruction s i hrun hwf ⟨rest, h.symm⟩, exec_eq]
    rfl
  · rw [unread_emitted, h, ← encode_length i, List.drop_left]

theorem State.with_cursor_of_eq {s : State} {c : Nat} (h : s.cursor = c) : ({ s with cursor := c } : State) = s := by
  rw [← h]

/-- Settles O29, by induction on the list of instructions: each step renders the first and leaves the others. -/
theorem encodedStreamIsRenderedWhole : Obligations.EncodedStreamIsRenderedWhole := by
  unfold Obligations.EncodedStreamIsRenderedWhole
  intro s is
  induction is generalizing s with
  | nil =>
    intro _ hle _ hunread
    have hlen := congrArg List.length hunread
    simp only [State.unread_length, List.flatMap_nil, List.length_nil] at hlen
    have hend : s.cursor = s.inputLength := by omega
    simp only [List.map_nil, List.append_nil]
    exact (State.with_cursor_of_eq hend).symm
  | cons i is ih =>
    intro hrun _ hall hunread
    obtain ⟨hwf, hwfs⟩ := List.forall_mem_cons.mp hall
    obtain ⟨hstep, hrest⟩ := step_of_unread_eq_encode_append hrun hwf hunread
    have hend := (step_cursor_bounds hstep).2
    have hruns := ih (emitted s (lineOf s.params i) i.length) hrun hend hwfs hrest
    rw [List.length_cons, runSteps_succ_of_next hstep, hruns]
    simp [emitted]

end Sys2Proof.Machine
end

