-- ==== Sys2Proof/Proofs/Passes.lean ====
section
/-! SUPPORT. Whole passes (R126, R127): a run from the start of a pass keeps `N`, the cursor within it and the
diagnostic, and is over before its bound, since each step stops the pass or consumes two bytes. -/

namespace Sys2Proof.Machine

/-! ### What a run of steps keeps -/

theorem runSteps_inputLength (n : Nat) (s : State) : (runSteps n s).inputLength = s.inputLength :=
  runSteps_induction (P := fun u => u.inputLength = s.inputLength)
    (fun u t hu h => (stepNeverChangesTheInput u t h).2.1.trans hu) n rfl

/-- A run keeps the cursor within the input (R123). -/
theorem runSteps_cursor_le (n : Nat) {s : State} (h : s.cursor ≤ s.inputLength) :
    (runSteps n s).cursor ≤ (runSteps n s).inputLength := by
  refine runSteps_induction (P := fun u => u.cursor ≤ u.inputLength) (fun u t _ hstep => ?_) n h
  rw [(stepNeverChangesTheInput u t hstep).2.1]
  exact (step_cursor_bounds hstep).2

/-- A step keeps the diagnostic in agreement with `run`, the cursor and the input (R22, R24, R137). -/
theorem step_keeps_statusOk (s t : State) (hs : s.statusOk = true) (h : step s = .next t) : t.statusOk = true := by
  obtain ⟨hen, ⟨i, rest, -, rfl⟩ | ⟨r, hd, rfl⟩⟩ := step_next_cases h
  · have hdiag : s.diag = none := (State.statusOk_of_running hen.1).mp hs
    refine (State.statusOk_of_running ?_).mpr hdiag
    exact hen.1
  · exact State.stopWith_statusOk hen.2 (decode_reject_fits hd).of_fetch

theorem runSteps_statusOk (n : Nat) {s : State} (h : s.statusOk = true) : (runSteps n s).statusOk = true :=
  runSteps_induction step_keeps_statusOk n h

/-! ### Termination (R127) -/

/-- Every step stops the pass or consumes the two bytes or more of an instruction (R122, R125). -/
theorem step_stops_or_advances {s t : State} (h : step s = .next t) :
    t.run = .stopped ∨ s.cursor + 2 ≤ t.cursor := by
  obtain ⟨-, ⟨i, rest, -, rfl⟩ | ⟨r, -, rfl⟩⟩ := step_next_cases h
  · exact .inr (Nat.add_le_add_left (two_le_length i) _)
  · exact .inl rfl

theorem State.not_enabled_of_stopped {s : State} (h : s.run = .stopped) : ¬ s.enabled :=
  fun hen => absurd (hen.1.symm.trans h) nofun

/-- A run with one step for each two bytes left ends where no step is enabled. -/
theorem runSteps_not_enabled (n : Nat) {s : State} (h : s.inputLength ≤ s.cursor + 2 * n) :
    ¬ (runSteps n s).enabled := by
  induction n generalizing s with
  | zero => exact fun hen => absurd hen.2 h.not_gt
  | succ n ih =>
    by_cases hen : s.enabled
    · obtain ⟨t, ht⟩ := exists_next_of_enabled hen
      rw [runSteps_succ_of_next ht]
      rcases step_stops_or_advances ht with hstop | hadvance
      · rw [runSteps_of_not_enabled (State.not_enabled_of_stopped hstop)]
        exact State.not_enabled_of_stopped hstop
      · have hN := (stepNeverChangesTheInput s t ht).2.1
        exact ih (by omega)
    · rwa [runSteps_of_not_enabled hen]

/-- The bound of R127 is enough for a pass over `bytes`. -/
theorem runPass_not_enabled (s : State) (bytes : List Byte) : ¬ (s.runPass bytes).enabled := by
  refine runSteps_not_enabled _ ?_
  simp only [State.startPass_inputLength, State.startPass_cursor]
  omega

/-- Settles O27: the step lemma, and the bound it gives. -/
theorem everyPassTerminates : Obligations.EveryPassTerminates := by
  unfold Obligations.EveryPassTerminates
  exact ⟨fun _ _ h => step_stops_or_advances h, runPass_not_enabled⟩

/-! ### Outcomes (R126) -/

/-- A stop whose diagnostic agrees names an offset: the cursor, before the end of the input (R24, R137). -/
theorem State.diag_of_stopped {s : State} (h : s.statusOk = true) (hrun : s.run = .stopped) :
    ∃ info, s.diag = some info ∧ s.cursor = info.offset ∧ info.offset < s.inputLength := by
  cases hdiag : s.diag with
  | none => simp [State.statusOk, hrun, hdiag] at h
  | some info =>
    simp only [State.statusOk, hrun, hdiag, Bool.and_eq_true, decide_eq_true_eq] at h
    obtain ⟨⟨⟨hoffset, hlt⟩, -⟩, -⟩ := h
    exact ⟨info, rfl, hoffset.symm, hoffset ▸ hlt⟩

/-- Where no step is enabled, a state within the input is at its end or stopped before it (R22, R119). -/
theorem State.done_or_stopped {s : State} (hen : ¬ s.enabled) (hle : s.cursor ≤ s.inputLength)
    (hstatus : s.statusOk = true) :
    (s.run = .running ∧ s.diag = none ∧ s.cursor = s.inputLength) ∨
      (s.run = .stopped ∧ ∃ info, s.diag = some info ∧ s.cursor = info.offset ∧ info.offset < s.inputLength) := by
  cases hrun : s.run with
  | running =>
    have hge : ¬ s.cursor < s.inputLength := fun hlt => hen ⟨hrun, hlt⟩
    exact .inl ⟨rfl, (State.statusOk_of_running hrun).mp hstatus, by omega⟩
  | stopped => exact .inr ⟨rfl, State.diag_of_stopped hstatus hrun⟩

/-- Settles O28: what a run keeps from the start of a pass, and the bound that ends it. -/
theorem everyPassEndsDoneOrStopped : Obligations.EveryPassEndsDoneOrStopped := by
  unfold Obligations.EveryPassEndsDoneOrStopped
  intro s bytes start t
  have hN : t.inputLength = bytes.length := runSteps_inputLength _ start
  have hend := State.done_or_stopped (runPass_not_enabled s bytes)
    (runSteps_cursor_le _ (Nat.zero_le _)) (runSteps_statusOk _ rfl)
  rw [hN] at hend
  exact ⟨rfl, rfl, rfl, rfl, ⟨_, rfl⟩, runPass_not_enabled s bytes, hend⟩

end Sys2Proof.Machine
end

