-- ==== Sys2Proof/Proofs/PseudocodeStep.lean ====
section
/-! SUPPORT. The spec's own pseudocode (Machine/Pseudocode.lean), said once by which bytes remain, and the step that
agrees with it: one lemma per format of the dispatch (R60, R121). -/

namespace Sys2Proof.Machine.Pseudocode

open Sys2Proof.Rules

/-! ### The readers and the checks (R72 to R75, R134) -/

variable {s : State} {c : Nat}

@[simp] theorem avail_eq_true {n : Nat} : avail s c n = true ↔ c + n ≤ s.inputLength := decide_eq_true_iff

@[simp] theorem avail_eq_false {n : Nat} : avail s c n = false ↔ s.inputLength < c + n := by
  rw [← Bool.not_eq_true, avail_eq_true, Nat.not_le]

@[simp] theorem readDisp_snd (s : State) (p : Nat) (mode : Mode) (rm : Sel) :
    (readDisp s p mode rm).2 = dispLen mode rm := by
  cases mode with
  | mem0 => simp only [readDisp, dispLen]; split <;> rfl
  | mem8 => rfl
  | mem16 => rfl
  | regd => rfl

@[simp] theorem readImmW_snd (s : State) (p : Nat) (w : Width) : (readImmW s p w).2 = immLenW w := by cases w <;> rfl

@[simp] theorem readImmIRM_snd (s : State) (p : Nat) (w : Width) (sx : Bool) :
    (readImmIRM s p w sx).2 = immLenIRM s.params sx w := by
  rw [immLenIRM_eq_ite, readImmIRM]
  split
  · rfl
  · split <;> rfl

theorem immLenW_eq_ite (w : Width) : immLenW w = if w = .word then 2 else 1 := by cases w <;> rfl

theorem signFlag_eq_ite (g : ImmGroup) (b0 : Byte) : signFlag g b0 = if g = .arith then byteBit b0 1 else false := by
  cases g <;> rfl

theorem need_of_second_missing (hheader : twoByteHeader s c = true) (h : s.inputLength < c + 2) : need s c = 2 := by
  rw [need, if_pos ⟨hheader, by omega⟩]

theorem need_of_two_le (h : c + 2 ≤ s.inputLength) : need s c = fullLength s c := by
  rw [need, if_neg (by omega)]

theorem need_of_one_byte_header (hheader : twoByteHeader s c = false) : need s c = fullLength s c := by
  rw [need, if_neg (by simp [hheader])]

/-! ### `finish` and `stop` at the cursor (R121) -/

theorem finish_ok (s : State) (b : Byte) (r : Record) {k : Nat} (hk : 0 < k) :
    finish s s.cursor b (.ok r k) = emitted s (renderLine s.params.directAddrQualifier r) k := by
  obtain ⟨k, rfl⟩ := Nat.exists_eq_add_one.mpr hk
  rfl

theorem finish_fail (s : State) (reason : StopReason) :
    finish s s.cursor (s.input.read s.cursor) (.fail reason) = stopped s reason (detail s reason s.cursor) := rfl

theorem detail_truncated {n : Nat} (h : need s c = n) :
    detail s .truncated c = .lengths n (s.inputLength - c) := by
  rw [← h]
  rfl

theorem detail_decoderFailure {g : ImmGroup} (hd : dispatch (s.input.read c) = .irm g)
    (hsel : secondary g (regField (s.input.read (c + 1))) = none) :
    detail s .decoderFailure c = .selector (regField (s.input.read (c + 1))) := by
  simp [detail, hd, hsel]

/-- A truncation at the cursor is the stop whose need the failing check required (R134). -/
theorem finish_truncated {n : Nat} (h : need s s.cursor = n) :
    finish s s.cursor (s.input.read s.cursor) (.fail .truncated) =
      stopped s .truncated (.lengths n (s.inputLength - s.cursor)) := by
  rw [finish_fail, detail_truncated h]

/-! ### The decoders, by which bytes remain (R81, R88, R92, R99) -/

theorem decodeRM_of_second_missing (m : Mnemonic) (h : s.inputLength < c + 2) :
    decodeRM s c m = .fail .truncated := by
  simp [decodeRM, h]

theorem decodeRM_of_disp_missing (m : Mnemonic)
    (h : s.inputLength <
      c + (2 + dispLen (Mode.ofField (modField (s.input.read (c + 1)))) (rmField (s.input.read (c + 1))))) :
    decodeRM s c m = .fail .truncated := by
  simp [decodeRM, h]

/-- With all its bytes left, the RM decoder completes the record of the operand that its displacement reader finds
(R81, R77, R78). -/
theorem decodeRM_of_complete (m : Mnemonic) {op : RmOperand}
    (hmode : op.mode = Mode.ofField (modField (s.input.read (c + 1)))) (hrm : op.sel = rmField (s.input.read (c + 1)))
    (hdisp : readDisp s (c + 2) op.mode op.sel = (dispValue op, op.dispLen))
    (h : c + (2 + dispLen op.mode op.sel) ≤ s.inputLength) :
    decodeRM s c m = .ok (recordRM m (byteBit (s.input.read c) 1) (.ofBit (byteBit (s.input.read c) 0))
      (regField (s.input.read (c + 1))) op) (2 + op.dispLen) := by
  have htwo : c + 2 ≤ s.inputLength := by omega
  simp only [decodeRM, ← hmode, ← hrm, avail_eq_true.mpr h, avail_eq_true.mpr htwo, hdisp]
  cases byteBit (s.input.read c) 1 <;> rfl

theorem decodeIR_of_data_missing (h : s.inputLength < c + (1 + immLenW (.ofBit (byteBit (s.input.read c) 3)))) :
    decodeIR s c = .fail .truncated := by
  simp [decodeIR, ← immLenW_eq_ite, h]

/-- With all its bytes left, the IR decoder completes the record of the immediate that its reader finds (R88). -/
theorem decodeIR_of_complete {imm : ImmData}
    (h : c + (1 + immLenW (.ofBit (byteBit (s.input.read c) 3))) ≤ s.inputLength)
    (hv : (readImmW s (c + 1) (.ofBit (byteBit (s.input.read c) 3))).1 = immValueW imm) :
    decodeIR s c = .ok (recordIR (.ofBit (byteBit (s.input.read c) 3)) ((s.input.read c).extractLsb' 0 3) imm)
      (1 + immLenW (.ofBit (byteBit (s.input.read c) 3))) := by
  simp [decodeIR, ← immLenW_eq_ite, h, hv, recordIR]

theorem decodeIA_of_data_missing (m : AccMnemonic)
    (h : s.inputLength < c + (1 + immLenW (.ofBit (byteBit (s.input.read c) 0)))) :
    decodeIA s c m = .fail .truncated := by
  simp [decodeIA, ← immLenW_eq_ite, h]

/-- With all its bytes left, the IA decoder completes the record of the immediate that its reader finds (R99). -/
theorem decodeIA_of_complete (m : AccMnemonic) {imm : ImmData}
    (h : c + (1 + immLenW (.ofBit (byteBit (s.input.read c) 0))) ≤ s.inputLength)
    (hv : (readImmW s (c + 1) (.ofBit (byteBit (s.input.read c) 0))).1 = immValueW imm) :
    decodeIA s c m = .ok (recordIA (accMnemonic m) (.ofBit (byteBit (s.input.read c) 0)) imm)
      (1 + immLenW (.ofBit (byteBit (s.input.read c) 0))) := by
  simp [decodeIA, ← immLenW_eq_ite, h, hv, recordIA, accumulatorName]

theorem decodeIRM_of_second_missing (g : ImmGroup) (h : s.inputLength < c + 2) :
    decodeIRM s c g = .fail .truncated := by
  simp [decodeIRM, h]

section

variable {g : ImmGroup} (htwo : c + 2 ≤ s.inputLength)

include htwo

theorem decodeIRM_of_bad_selector (hsel : secondary g (regField (s.input.read (c + 1))) = none) :
    decodeIRM s c g = .fail .decoderFailure := by
  simp [decodeIRM, avail_eq_true.mpr htwo, hsel]

variable {m : Mnemonic} (hm : secondary g (regField (s.input.read (c + 1))) = some m)

include hm

theorem decodeIRM_of_bytes_missing
    (h : s.inputLength < c + irmLength s.params g (s.input.read c) (s.input.read (c + 1))) :
    decodeIRM s c g = .fail .truncated := by
  rw [irmLength] at h
  simp only [decodeIRM, ← signFlag_eq_ite, ← immLenIRM_eq_ite, avail_eq_true.mpr htwo, hm, avail_eq_false.mpr h]
  simp

/-- With all its bytes left, the IRM decoder completes its record with the values its two readers find (R92). -/
theorem decodeIRM_of_complete
    (h : c + irmLength s.params g (s.input.read c) (s.input.read (c + 1)) ≤ s.inputLength) :
    let b0 := s.input.read c
    let b1 := s.input.read (c + 1)
    let w := Width.ofBit (byteBit b0 0)
    let mode := Mode.ofField (modField b1)
    let rm := rmField b1
    let disp := (readDisp s (c + 2) mode rm).1
    let v := (readImmIRM s (c + 2 + dispLen mode rm) w (signFlag g b0)).1
    decodeIRM s c g = .ok
      { mnem := m, w := w, d := false, s := signFlag g b0, mode := mode, reg := regField b1, rm := rm, disp := disp
        dst := resolveRm mode rm w disp, src := .imm v }
      (irmLength s.params g b0 b1) := by
  rw [irmLength] at h
  simp only [decodeIRM, ← signFlag_eq_ite, ← immLenIRM_eq_ite, avail_eq_true.mpr htwo, hm, avail_eq_true.mpr h]
  simp [irmLength]

end

end Sys2Proof.Machine.Pseudocode

namespace Sys2Proof.Machine

open Sys2Proof.Rules

/-! ### The lines of the completed records -/

/-- The result of an RM instruction is the line of its record and its advance. -/
theorem regRmResult_eq_emitted (m : Mnemonic) (d : Bool) (w : Width) (reg : Sel) (rm : RmOperand) (s : State) :
    regRmResult (mnemText m) d w reg rm s =
      emitted s (renderLine s.params.directAddrQualifier (recordRM m d w reg rm)) (2 + rm.dispLen) := by
  cases d <;> rfl

theorem accumulatorName_ofBit (b : Bool) : accumulatorName (.ofBit b) = if b then "ax" else "al" := by
  cases b <;> rfl

/-! ### The step on each format -/

section

variable {s : State} (hen : s.enabled)

include hen

theorem step_eq_pseudocode_unrecognized (hd : dispatch (s.input.read s.cursor) = .unrecognized) :
    step s = .next (Pseudocode.stop s .unrecognizedOpcode s.cursor (s.input.read s.cursor)) := by
  obtain ⟨tail, hf, -⟩ := State.fetch_eq_cons hen.2
  have hdec : decode s.params s.fetch = .reject .unrecognizedOpcode := by simp [hf, decode, hd]
  exact step_of_reject hen hdec

theorem step_eq_pseudocode_rm {m : Mnemonic} (hd : dispatch (s.input.read s.cursor) = .rm m) :
    step s = .next (Pseudocode.finish s s.cursor (s.input.read s.cursor) (Pseudocode.decodeRM s s.cursor m)) := by
  have hlen := fullLength_of_rm hd
  rcases Nat.lt_or_ge s.inputLength (s.cursor + 2) with hone | htwo
  · have hheader : Pseudocode.twoByteHeader s s.cursor = true := by simp [Pseudocode.twoByteHeader, hd]
    rw [step_of_rm_second_missing hen rfl hd hone, Pseudocode.decodeRM_of_second_missing m hone,
      Pseudocode.finish_truncated (Pseudocode.need_of_second_missing hheader hone)]
  · rcases Nat.lt_or_ge s.inputLength (s.cursor + Pseudocode.fullLength s s.cursor) with hshort | hfit
    · rw [hlen] at hshort
      rw [step_of_rm_disp_missing hen rfl rfl hd htwo hshort, Pseudocode.decodeRM_of_disp_missing m hshort,
        Pseudocode.finish_truncated ((Pseudocode.need_of_two_le htwo).trans hlen)]
    · rw [hlen] at hfit
      obtain ⟨op, -, hmode, hrm, hdisp, hstep⟩ := step_of_rm_complete hen rfl rfl hd hfit
      rw [← hmode, ← hrm] at hfit
      rw [hstep, Pseudocode.decodeRM_of_complete m hmode hrm hdisp hfit, Pseudocode.finish_ok _ _ _ (by omega),
        regRmResult_eq_emitted]

theorem step_eq_pseudocode_ir (hd : dispatch (s.input.read s.cursor) = .ir) :
    step s = .next (Pseudocode.finish s s.cursor (s.input.read s.cursor) (Pseudocode.decodeIR s s.cursor)) := by
  have hlen := fullLength_of_ir hd
  rcases Nat.lt_or_ge s.inputLength (s.cursor + Pseudocode.fullLength s s.cursor) with hshort | hfit
  · have hheader : Pseudocode.twoByteHeader s s.cursor = false := by simp [Pseudocode.twoByteHeader, hd]
    rw [hlen] at hshort
    rw [step_of_ir_data_missing hen rfl hd hshort, Pseudocode.decodeIR_of_data_missing hshort,
      Pseudocode.finish_truncated ((Pseudocode.need_of_one_byte_header hheader).trans hlen)]
  · rw [hlen] at hfit
    obtain ⟨imm, -, -, -, hv⟩ := exists_imm_of_immLenW_le hfit
    rw [step_of_ir_complete hen rfl hd hfit, hv, Pseudocode.decodeIR_of_complete hfit (congrArg Prod.fst hv),
      Pseudocode.finish_ok _ _ _ (by omega)]
    rfl

theorem step_eq_pseudocode_ia {m : AccMnemonic} (hd : dispatch (s.input.read s.cursor) = .ia m) :
    step s = .next (Pseudocode.finish s s.cursor (s.input.read s.cursor) (Pseudocode.decodeIA s s.cursor m)) := by
  have hlen := fullLength_of_ia hd
  rcases Nat.lt_or_ge s.inputLength (s.cursor + Pseudocode.fullLength s s.cursor) with hshort | hfit
  · have hheader : Pseudocode.twoByteHeader s s.cursor = false := by simp [Pseudocode.twoByteHeader, hd]
    rw [hlen] at hshort
    rw [step_of_ia_data_missing hen rfl hd hshort, Pseudocode.decodeIA_of_data_missing m hshort,
      Pseudocode.finish_truncated ((Pseudocode.need_of_one_byte_header hheader).trans hlen)]
  · rw [hlen] at hfit
    obtain ⟨imm, -, -, -, hv⟩ := exists_imm_of_immLenW_le hfit
    rw [step_of_ia_complete hen rfl hd hfit, hv, Pseudocode.decodeIA_of_complete m hfit (congrArg Prod.fst hv),
      Pseudocode.finish_ok _ _ _ (by omega), ← accumulatorName_ofBit]
    rfl

theorem step_eq_pseudocode_irm {g : ImmGroup} (hd : dispatch (s.input.read s.cursor) = .irm g) :
    step s = .next (Pseudocode.finish s s.cursor (s.input.read s.cursor) (Pseudocode.decodeIRM s s.cursor g)) := by
  have hlen : Pseudocode.fullLength s s.cursor =
      irmLength s.params g (s.input.read s.cursor) (s.input.read (s.cursor + 1)) := fullLength_of_irm hd
  rcases Nat.lt_or_ge s.inputLength (s.cursor + 2) with hone | htwo
  · have hheader : Pseudocode.twoByteHeader s s.cursor = true := by simp [Pseudocode.twoByteHeader, hd]
    rw [step_of_irm_second_missing hen rfl hd hone, Pseudocode.decodeIRM_of_second_missing g hone,
      Pseudocode.finish_truncated (Pseudocode.need_of_second_missing hheader hone)]
  · cases hm : secondary g (regField (s.input.read (s.cursor + 1))) with
    | none =>
      rw [step_of_unsupported_selector hen htwo hd hm, Pseudocode.decodeIRM_of_bad_selector htwo hm,
        Pseudocode.finish_fail, Pseudocode.detail_decoderFailure hd hm]
      rfl
    | some m =>
      rcases Nat.lt_or_ge s.inputLength (s.cursor + Pseudocode.fullLength s s.cursor) with hshort | hfit
      · rw [hlen] at hshort
        rw [step_of_irm_bytes_missing hen rfl hd rfl hm htwo hshort,
          Pseudocode.decodeIRM_of_bytes_missing htwo hm hshort,
          Pseudocode.finish_truncated ((Pseudocode.need_of_two_le htwo).trans hlen)]
      · rw [hlen] at hfit
        have hpos := two_le_irmLength s.params g (s.input.read s.cursor) (s.input.read (s.cursor + 1))
        rw [step_of_irm_complete hen rfl hd rfl hm hfit, Pseudocode.decodeIRM_of_complete htwo hm hfit,
          Pseudocode.finish_ok _ _ _ (by omega)]
        rfl

end

/-- Settles O16, by the entry that the leading byte has in `DISPATCH` (R60). -/
theorem stepFollowsThePseudocode : Obligations.StepFollowsThePseudocode := by
  unfold Obligations.StepFollowsThePseudocode
  intro s hen
  rw [Pseudocode.step]
  cases hd : dispatch (s.input.read s.cursor) with
  | unrecognized => exact step_eq_pseudocode_unrecognized hen hd
  | rm m => exact step_eq_pseudocode_rm hen hd
  | ir => exact step_eq_pseudocode_ir hen hd
  | irm g => exact step_eq_pseudocode_irm hen hd
  | ia m => exact step_eq_pseudocode_ia hen hd

end Sys2Proof.Machine
end

