-- ==== Sys2Proof/Proofs/StopPriority.lean ====
section
/-! SUPPORT. The reason of a stop (R131, R132, R136): one lemma for each check that fails first, and one inversion lemma
for what a stop at the cursor says about the bytes there. -/

namespace Sys2Proof

open Sys2Proof.Rules

/-! ### The ranges of leading bytes (R60) -/

/-- The bytes without an entry in `DISPATCH` are those outside the 44 recognized ones (R60, R131). -/
theorem dispatch_eq_unrecognized_iff {b : Byte} : dispatch b = .unrecognized ↔ recognized b = false := by
  decide +revert

theorem dispatch_eq_irm_arith_iff {b : Byte} : dispatch b = .irm .arith ↔ 0x80#8 ≤ b ∧ b ≤ 0x83#8 := by
  decide +revert

theorem dispatch_eq_irm_mov_iff {b : Byte} : dispatch b = .irm .mov ↔ 0xC6#8 ≤ b ∧ b ≤ 0xC7#8 := by
  decide +revert

/-- The `fail` entries of the arithmetic group (R62). -/
theorem secondary_arith_eq_none_iff {f : Sel} :
    secondary .arith f = none ↔ f ≠ 0b000#3 ∧ f ≠ 0b101#3 ∧ f ≠ 0b111#3 := by
  decide +revert

/-- The `fail` entries of the mov group (R62). -/
theorem secondary_mov_eq_none_iff {f : Sel} : secondary .mov f = none ↔ f ≠ 0b000#3 := by
  decide +revert

/-- The selectors without a mnemonic, by the ranges of the leading byte of the two groups (R62, R132). -/
theorem exists_irm_secondary_eq_none_iff {b : Byte} {f : Sel} :
    (∃ g, dispatch b = .irm g ∧ secondary g f = none) ↔
      ((0x80#8 ≤ b ∧ b ≤ 0x83#8) ∧ f ≠ 0b000#3 ∧ f ≠ 0b101#3 ∧ f ≠ 0b111#3) ∨
        ((0xC6#8 ≤ b ∧ b ≤ 0xC7#8) ∧ f ≠ 0b000#3) := by
  rw [← dispatch_eq_irm_arith_iff, ← dispatch_eq_irm_mov_iff, ← secondary_arith_eq_none_iff,
    ← secondary_mov_eq_none_iff]
  constructor
  · rintro ⟨g, hg⟩
    cases g with
    | arith => exact .inl hg
    | mov => exact .inr hg
  · rintro (hg | hg)
    · exact ⟨.arith, hg⟩
    · exact ⟨.mov, hg⟩

end Sys2Proof

namespace Sys2Proof.Machine

open Sys2Proof.Rules

/-! ### What each failing check does to the step (R136) -/

section

variable {s : State} {c : Nat}

theorem twoByteHeader_of_rm {m : Mnemonic} (hd : dispatch (s.input.read c) = .rm m) :
    Pseudocode.twoByteHeader s c = true := by
  simp [Pseudocode.twoByteHeader, hd]

theorem twoByteHeader_of_irm {g : ImmGroup} (hd : dispatch (s.input.read c) = .irm g) :
    Pseudocode.twoByteHeader s c = true := by
  simp [Pseudocode.twoByteHeader, hd]

/-- Only the RM and IRM formats have a two-byte header (R54, R56). -/
theorem dispatch_of_twoByteHeader (h : Pseudocode.twoByteHeader s c = true) :
    (∃ m, dispatch (s.input.read c) = .rm m) ∨ ∃ g, dispatch (s.input.read c) = .irm g := by
  cases hd : dispatch (s.input.read c) with
  | rm m => exact .inl ⟨m, rfl⟩
  | irm g => exact .inr ⟨g, rfl⟩
  | unrecognized => simp [Pseudocode.twoByteHeader, hd] at h
  | ir => simp [Pseudocode.twoByteHeader, hd] at h
  | ia m => simp [Pseudocode.twoByteHeader, hd] at h

/-- Where the check for the second header byte passes, a two-byte header is left whole. -/
theorem two_le_of_header_left (hheader : Pseudocode.twoByteHeader s c = true)
    (h : ¬ (Pseudocode.twoByteHeader s c = true ∧ s.inputLength - c < 2)) : c + 2 ≤ s.inputLength := by
  have hremain : ¬ s.inputLength - c < 2 := fun hlt => h ⟨hheader, hlt⟩
  omega

end

section

variable {s : State} (hen : s.enabled)

include hen

/-- The first check: the lookup of the leading byte (R131). -/
theorem step_of_unrecognized (hd : dispatch (s.input.read s.cursor) = .unrecognized) :
    step s = .next (stopped s .unrecognizedOpcode .none) :=
  step_eq_pseudocode_unrecognized hen hd

/-- The second check: the second byte of a two-byte header (R133). -/
theorem step_of_header_missing (hheader : Pseudocode.twoByteHeader s s.cursor = true)
    (hone : s.inputLength - s.cursor < 2) :
    step s = .next (stopped s .truncated (.lengths 2 (s.inputLength - s.cursor))) := by
  have hlt : s.inputLength < s.cursor + 2 := by omega
  obtain ⟨m, hd⟩ | ⟨g, hd⟩ := dispatch_of_twoByteHeader hheader
  · exact step_of_rm_second_missing hen rfl hd hlt
  · exact step_of_irm_second_missing hen rfl hd hlt

section

variable (hknown : dispatch (s.input.read s.cursor) ≠ .unrecognized)
  (hheader : ¬ (Pseudocode.twoByteHeader s s.cursor = true ∧ s.inputLength - s.cursor < 2))
  (hsel : ¬ ∃ g, dispatch (s.input.read s.cursor) = .irm g ∧
    secondary g (regField (s.input.read (s.cursor + 1))) = none)

include hknown hheader hsel

/-- The last check, after the three before it passed: the full length of R64 (R133). -/
theorem step_of_length_missing (hshort : s.inputLength - s.cursor < Pseudocode.fullLength s s.cursor) :
    step s = .next (stopped s .truncated
      (.lengths (Pseudocode.fullLength s s.cursor) (s.inputLength - s.cursor))) := by
  have hlt : s.inputLength < s.cursor + Pseudocode.fullLength s s.cursor := by omega
  cases hd : dispatch (s.input.read s.cursor) with
  | unrecognized => exact absurd hd hknown
  | rm m =>
    have htwo := two_le_of_header_left (twoByteHeader_of_rm hd) hheader
    rw [fullLength_of_rm hd] at hlt ⊢
    exact step_of_rm_disp_missing hen rfl rfl hd htwo hlt
  | ir =>
    rw [fullLength_of_ir hd] at hlt ⊢
    exact step_of_ir_data_missing hen rfl hd hlt
  | irm g =>
    have htwo := two_le_of_header_left (twoByteHeader_of_irm hd) hheader
    obtain ⟨m, hm⟩ := Option.ne_none_iff_exists'.mp fun hnone => hsel ⟨g, hd, hnone⟩
    rw [fullLength_of_irm hd] at hlt ⊢
    exact step_of_irm_bytes_missing hen rfl hd rfl hm htwo hlt
  | ia m =>
    rw [fullLength_of_ia hd] at hlt ⊢
    exact step_of_ia_data_missing hen rfl hd hlt

omit hheader in
/-- Where no check fails the step completes one instruction of R64's length (R122). -/
theorem step_of_checks_passed (hlong : ¬ s.inputLength - s.cursor < Pseudocode.fullLength s s.cursor) :
    ∃ line, step s = .next (emitted s line (Pseudocode.fullLength s s.cursor)) := by
  have hlt : s.cursor < s.inputLength := hen.2
  have hfit : s.cursor + Pseudocode.fullLength s s.cursor ≤ s.inputLength := by omega
  cases hd : dispatch (s.input.read s.cursor) with
  | unrecognized => exact absurd hd hknown
  | rm m =>
    have hlen := fullLength_of_rm hd
    rw [hlen] at hfit
    obtain ⟨op, hw, hmode, hrm, -, hstep⟩ := step_of_rm_complete hen rfl rfl hd hfit
    rw [← hmode, ← hrm, RmOperand.dispLen_eq hw] at hlen
    rw [regRmResult_eq_emitted, ← hlen] at hstep
    exact ⟨_, hstep⟩
  | ir =>
    rw [fullLength_of_ir hd] at hfit ⊢
    exact ⟨_, step_of_ir_complete hen rfl hd hfit⟩
  | irm g =>
    obtain ⟨m, hm⟩ := Option.ne_none_iff_exists'.mp fun hnone => hsel ⟨g, hd, hnone⟩
    rw [fullLength_of_irm hd] at hfit ⊢
    exact ⟨_, step_of_irm_complete hen rfl hd rfl hm hfit⟩
  | ia m =>
    rw [fullLength_of_ia hd] at hfit ⊢
    exact ⟨_, step_of_ia_complete hen rfl hd hfit⟩

end

end

/-- Settles O22: one lemma for each check of R136's order, and one for the step that passes them all. -/
theorem stopReasonFollowsThePriority : Obligations.StopReasonFollowsThePriority := by
  unfold Obligations.StopReasonFollowsThePriority
  intro s hen
  dsimp only
  refine ⟨step_of_unrecognized hen, fun _ ⟨hheader, hone⟩ => step_of_header_missing hen hheader hone, ?_,
    step_of_length_missing hen, fun hknown _ hsel hlong => step_of_checks_passed hen hknown hsel hlong⟩
  rintro - hheader ⟨g, hd, hsel⟩
  exact step_of_unsupported_selector hen (two_le_of_header_left (twoByteHeader_of_irm hd) hheader) hd hsel

/-! ### What a stop says about the bytes at the cursor (R131, R132) -/

theorem stopped_inj {s : State} {reason reason' : StopReason} {detail detail' : StopDetail}
    (h : stopped s reason detail = stopped s reason' detail') : reason = reason' ∧ detail = detail' := by
  simpa [stopped] using h

/-- A step that completes an instruction of a RUNNING state does not stop. -/
theorem emitted_ne_stopped {s : State} (hrun : s.run = .running) (line : String) (k : Nat) (reason : StopReason)
    (detail : StopDetail) : emitted s line k ≠ stopped s reason detail := by
  intro h
  have hstopped : s.run = .stopped := congrArg State.run h
  exact Run.noConfusion (hrun.symm.trans hstopped)

/-- A stop names the check that failed: the lookup, the selector with two bytes left, or a length (R136). -/
theorem step_stopped_cases {s : State} (hen : s.enabled) {reason : StopReason} {detail : StopDetail}
    (h : step s = .next (stopped s reason detail)) :
    (dispatch (s.input.read s.cursor) = .unrecognized ∧ reason = .unrecognizedOpcode ∧ detail = .none) ∨
    (s.cursor + 2 ≤ s.inputLength ∧ reason = .decoderFailure ∧ ∃ g, dispatch (s.input.read s.cursor) = .irm g ∧
      secondary g (regField (s.input.read (s.cursor + 1))) = none) ∨
    reason = .truncated := by
  have hinj : ∀ {reason' detail'}, step s = .next (stopped s reason' detail') →
      reason = reason' ∧ detail = detail' :=
    fun h' => stopped_inj (Host.Outcome.next.inj (h.symm.trans h'))
  by_cases hd : dispatch (s.input.read s.cursor) = .unrecognized
  · exact .inl ⟨hd, hinj (step_of_unrecognized hen hd)⟩
  by_cases hheader : Pseudocode.twoByteHeader s s.cursor = true ∧ s.inputLength - s.cursor < 2
  · exact .inr (.inr (hinj (step_of_header_missing hen hheader.1 hheader.2)).1)
  by_cases hsel : ∃ g, dispatch (s.input.read s.cursor) = .irm g ∧
      secondary g (regField (s.input.read (s.cursor + 1))) = none
  · obtain ⟨g, hg, hnone⟩ := hsel
    have htwo := two_le_of_header_left (twoByteHeader_of_irm hg) hheader
    exact .inr (.inl ⟨htwo, (hinj (step_of_unsupported_selector hen htwo hg hnone)).1, g, hg, hnone⟩)
  by_cases hshort : s.inputLength - s.cursor < Pseudocode.fullLength s s.cursor
  · exact .inr (.inr (hinj (step_of_length_missing hen hd hheader hsel hshort)).1)
  · obtain ⟨line, hline⟩ := step_of_checks_passed hen hd hsel hshort
    exact absurd (Host.Outcome.next.inj (hline.symm.trans h)) (emitted_ne_stopped hen.1 _ _ _ _)

theorem step_stopped_unrecognized {s : State} (hen : s.enabled) {detail : StopDetail}
    (h : step s = .next (stopped s .unrecognizedOpcode detail)) :
    dispatch (s.input.read s.cursor) = .unrecognized ∧ detail = .none := by
  obtain ⟨hd, -, hdetail⟩ | ⟨-, hreason, -⟩ | hreason := step_stopped_cases hen h
  · exact ⟨hd, hdetail⟩
  · cases hreason
  · cases hreason

theorem step_stopped_decoderFailure {s : State} (hen : s.enabled) {detail : StopDetail}
    (h : step s = .next (stopped s .decoderFailure detail)) :
    s.cursor + 2 ≤ s.inputLength ∧ ∃ g, dispatch (s.input.read s.cursor) = .irm g ∧
      secondary g (regField (s.input.read (s.cursor + 1))) = none := by
  obtain ⟨-, hreason, -⟩ | ⟨htwo, -, hsel⟩ | hreason := step_stopped_cases hen h
  · cases hreason
  · exact ⟨htwo, hsel⟩
  · cases hreason

/-- Settles O20: the unrecognized bytes are those without an entry in `DISPATCH`, the first check of the step. -/
theorem unrecognizedLeadingByteStops : Obligations.UnrecognizedLeadingByteStops := by
  unfold Obligations.UnrecognizedLeadingByteStops
  intro s hen
  rw [← dispatch_eq_unrecognized_iff]
  exact ⟨⟨step_of_unrecognized hen, fun h => (step_stopped_unrecognized hen h).1⟩,
    fun _ h => (step_stopped_unrecognized hen h).2⟩

/-- Settles O21: the ranges of the statement are the `fail` entries of the secondary dispatch. -/
theorem unsupportedSelectorStops : Obligations.UnsupportedSelectorStops := by
  unfold Obligations.UnsupportedSelectorStops
  intro s hen
  dsimp only
  rw [← exists_irm_secondary_eq_none_iff]
  constructor
  · rintro ⟨htwo, g, hd, hsel⟩
    exact step_of_unsupported_selector hen htwo hd hsel
  · rintro ⟨detail, h⟩
    exact step_stopped_decoderFailure hen h

end Sys2Proof.Machine
end

