-- ==== Sys2Proof/Proofs/PassStart.lean ====
section
/-! SUPPORT. Reset and the start of a pass (R144 to R147): the bytes that are loaded, the invariant there, and the
header lines that every step keeps first. -/

namespace Sys2Proof

/-- Every value of the free header tail makes a legal header comment, its line breaks being left out (R12, R117). -/
theorem Config.params_headerOk : Config.params.headerOk = true := by
  have hchars : Config.params.headerComment.toList =
      ';' :: Config.headerCommentTail.filter (fun c => c ≠ '\n' && c ≠ '\r') := String.toList_ofList
  rw [Params.headerOk, hchars]
  refine Bool.and_eq_true_iff.mpr ⟨by decide, List.all_eq_true.mpr fun c hc => ?_⟩
  rcases List.mem_cons.mp hc with rfl | hc
  · decide
  · exact (List.mem_filter.mp hc).2

end Sys2Proof

namespace Sys2Proof.Machine

/-! ### The bytes loaded at the start of a pass (R147) -/

/-- The start of a pass holds exactly the caller's bytes (R38, R147). -/
theorem State.readInput_startPass (s : State) (bytes : List Byte) (i : Nat) :
    (s.startPass bytes).readInput i = bytes[i]? := by
  rw [State.readInput, State.startPass_inputLength, State.startPass_input]
  split
  · next hlt => simp [Memory.read_writeBytes (m := []) (by simp [Memory.wf]), hlt]
  · next hge => exact (List.getElem?_eq_none (Nat.le_of_not_lt hge)).symm

/-- Settles O3: the reset values are the definition's, and the loaded buffer is canonical and reads as the input. -/
theorem startOfPassResetsAndLoads : Obligations.StartOfPassResetsAndLoads := by
  unfold Obligations.StartOfPassResetsAndLoads
  intro s bytes t
  exact ⟨rfl, rfl, rfl, rfl, rfl, s.startPass_input_wf bytes, s.readInput_startPass bytes⟩

/-! ### The invariant at reset and at the start of a pass -/

/-- The start of a pass loads no byte at or after `N` (R38, R147). -/
theorem State.startPass_inputOk (s : State) (bytes : List Byte) : (s.startPass bytes).inputOk := by
  refine ⟨s.startPass_input_wf bytes, fun c hc => ?_⟩
  obtain hnil | ⟨-, hlt⟩ := Memory.mem_writeBytes hc
  · cases hnil
  · rwa [Nat.zero_add] at hlt

/-- Settles O6: the loaded bytes are all below `N`, and the header comment is legal by hypothesis. -/
theorem startOfPassMeetsInvariant : Obligations.StartOfPassMeetsInvariant := by
  unfold Obligations.StartOfPassMeetsInvariant
  intro s bytes hheader
  exact
    { inputOk := s.startPass_inputOk bytes
      cursorInRange := Nat.zero_le _
      statusOk := rfl
      headersFirst := rfl
      headerOk := hheader }

/-- Reset is the start of a pass on the empty input, in the build's parameters (log entry 6). -/
theorem State.reset_eq_startPass_nil : State.reset = State.reset.startPass [] := rfl

/-- Settles O5: reset is the start of a pass on the empty input, with a legal header comment. -/
theorem resetMeetsInvariant : Obligations.ResetMeetsInvariant := by
  unfold Obligations.ResetMeetsInvariant
  rw [State.reset_eq_startPass_nil]
  exact startOfPassMeetsInvariant State.reset [] Config.params_headerOk

/-- Settles O1: the values are the definition's, the header comment is legal, and nothing is loaded. -/
theorem resetStateValues : Obligations.ResetStateValues := by
  unfold Obligations.ResetStateValues
  exact ⟨rfl, rfl, rfl, rfl, Config.params_headerOk, rfl, rfl, rfl, State.reset.readInput_startPass []⟩

/-! ### The header lines of a pass (R145) -/

/-- A step keeps every earlier line (R122, R125). -/
theorem step_keeps_lines {s t : State} (h : step s = .next t) : s.out <+: t.out := by
  obtain ⟨-, ⟨i, rest, -, rfl⟩ | ⟨r, -, rfl⟩⟩ := step_next_cases h
  · exact List.prefix_append _ _
  · exact List.prefix_rfl

theorem runSteps_keeps_lines (n : Nat) (s : State) : s.out <+: (runSteps n s).out :=
  runSteps_induction (P := fun u => s.out <+: u.out) (fun _ _ hu h => hu.trans (step_keeps_lines h)) n
    List.prefix_rfl

/-- Settles O2: the header lines are out at the start of the pass, and a run keeps every line. -/
theorem everyPassBeginsWithTheHeaderLines : Obligations.EveryPassBeginsWithTheHeaderLines := by
  unfold Obligations.EveryPassBeginsWithTheHeaderLines
  intro s bytes n
  exact ⟨rfl, runSteps_keeps_lines n (s.startPass bytes)⟩

/-! ### The pass over an empty input (R146) -/

theorem startPass_nil_not_enabled (s : State) : ¬ (s.startPass []).enabled := fun hen => absurd hen.2 (Nat.lt_irrefl 0)

/-- The pass over an empty input is over where it starts (R119, R146). -/
theorem runPass_nil (s : State) : s.runPass [] = s.startPass [] :=
  runSteps_of_not_enabled (startPass_nil_not_enabled s) _

/-- Settles O4: no step is enabled, so the pass ends in its start. -/
theorem emptyInputPassIsDone : Obligations.EmptyInputPassIsDone := by
  unfold Obligations.EmptyInputPassIsDone
  intro s
  rw [runPass_nil]
  exact ⟨startPass_nil_not_enabled s, ⟨rfl, rfl⟩, rfl, rfl⟩

end Sys2Proof.Machine
end

