-- ==== Sys2Proof/Proofs/DiagnosticText.lean ====
section
/-! SUPPORT. The binary digits of a bit pattern in the text of a diagnostic (R134). -/

namespace Sys2Proof.Machine

/-- The digits are the bits of the number, most significant first. -/
theorem toList_binDigits (n v : Nat) :
    (binDigits n v).toList = (List.range n).map (fun k => if v.testBit (n - 1 - k) then '1' else '0') := by
  induction n with
  | zero => rfl
  | succ n ih =>
    have hhead : (if v.testBit n then "1" else "0").toList = [if v.testBit n then '1' else '0'] := by
      split <;> rfl
    have hshift : ∀ k, n - 1 - k = n - (k + 1) := by omega
    rw [binDigits, String.toList_append, ih, hhead, List.range_succ_eq_map, List.map_cons, List.map_map]
    simp [Function.comp_def, hshift]

/-- Settles O58: the words are those of the reason and of the detail, and the digits are the bits of the pattern. -/
theorem diagnosticTextNamesOffsetAndPattern : Obligations.DiagnosticTextNamesOffsetAndPattern := by
  unfold Obligations.DiagnosticTextNamesOffsetAndPattern
  intro offset b sel need remain
  refine ⟨?_, ?_, ?_, ?_, toList_binDigits 8 b.toNat, toList_binDigits 3 sel.toNat⟩ <;>
    simp [diagText, reasonText, detailText, String.append_assoc]

end Sys2Proof.Machine
end
